-- ==== Sys2Proof/Config.lean ====
section
/-! DEFINITION. The parameters of the implementation (spec 00_scope.md R7, R9, R10), each named once and
used by its name (R7, 93_implementation_defined.md U4; log entry 13). The spec leaves no
value open at run time, so there is no free value here. -/

namespace Sys2Proof.Config

/-- CELL_W (R7): the width of a tape cell in bits. -/
abbrev cellW : Nat := 8

/-- INSN_W (R7): the width of a program element, one instruction, in bits. -/
abbrev insnW : Nat := 8

/-- IO_W (R7): the width of an input element and of an output element in bits. -/
abbrev ioW : Nat := 8

/-- TAPE_LEN (R7): the number of tape cells. -/
def tapeLen : Nat := 30000

/-- DP_W (R10): the least width in bits that holds every value of DP. -/
def dpWidth : Nat := 15

/-- IP_W and DEPTH_W for a finite PROG_CAP, IC_W for a finite INPUT_CAP (R10): the least width that
holds 0 to `cap` inclusive, `ceil(log2(cap + 1))`. -/
def widthFor (cap : Nat) : Nat := Nat.clog 2 (cap + 1)

/-- PROG_CAP, INPUT_CAP and OUT_CAP (R9), `none` meaning unbounded. The spec leaves them as parameters
the model takes as an argument (D10). DESIGN CHOICE, log entry 2: they stand in the State. -/
structure Caps where
  prog  : Option Nat
  input : Option Nat
  out   : Option Nat
deriving DecidableEq, Repr

/-- The default of R9: nothing is bounded, so nothing is ever refused. -/
def Caps.unbounded : Caps := ⟨none, none, none⟩

end Sys2Proof.Config
end

