-- ==== Sys2Proof/Word.lean ====
section
/-! DEFINITION. The data words of the machine, one per role, each of the width that spec 00_scope.md R7
names for it (Config.lean). All are unsigned (R13). Indexes (DP, IP, IC, SP, DEPTH) are natural numbers
(R10). A cell goes to OUT and an input element to a cell unchanged (42_io.md R110 to R112), so these
files compile only while CELL_W = IO_W, as in R7. -/

namespace Sys2Proof

/-- A tape cell: CELL_W bits (R7). -/
abbrev Cell := BitVec Config.cellW

/-- A program element, one instruction: INSN_W bits (R7), the one byte of R70. -/
abbrev Byte := BitVec Config.insnW

/-- An element of INPUT or of OUT: IO_W bits (R7). -/
abbrev IoByte := BitVec Config.ioW

end Sys2Proof
end

