-- ==== Sys2Proof/Machine/State.lean ====
section
/-! DEFINITION. The state of the machine (spec 10_state.md) as plain data, the reasons a step can stop,
and the state right after reset (R39). -/

namespace Sys2Proof.Machine

/-- One listed cell of the tape: its index and its value. With CELL_W = 8 it is the host's `Host.Cell`
(`tapeEntry_is_hostCell`, Laws/State.lean). -/
abbrev TapeEntry := Nat × Cell

/-- The tape as its cells that are not 0. An unlisted index reads as `unlistedCell`. Its canonical form
is `Memory.wf`. -/
abbrev Memory := List TapeEntry

/-- What an unlisted tape index reads as: the reset value of every cell (R20, R39). -/
def unlistedCell : Cell := 0#Config.cellW

/-- The canonical form from index `lo` on: indices strictly rising, at least `lo`, inside the tape
(R20, R56), and no cell listed with the value an unlisted index reads as. -/
def Memory.wfFrom (lo : Nat) : List TapeEntry → Bool
  | [] => true
  | (a, v) :: rest =>
    decide (lo ≤ a) && decide (a < Config.tapeLen) && (v != unlistedCell) && Memory.wfFrom (a + 1) rest

/-- The canonical form of the tape, so that equal tapes are equal data. -/
def Memory.wf (m : Memory) : Bool := Memory.wfFrom 0 m

/-- FAULT (R25), the block's only control or status register. Code 3, never produced, cannot be
written in this type (93_implementation_defined.md U7). -/
inductive FaultReg where
  /-- NONE: no fault has occurred. -/
  | noFault
  /-- OUT_OF_BOUNDS (R140). -/
  | outOfBounds
  /-- MALFORMED_PROGRAM (R141). -/
  | malformedProgram
deriving DecidableEq, Repr

/-- STATUS (R26), what the host reads to learn how the run stands. -/
inductive Status where
  | running
  | halted
  | faulted
deriving DecidableEq, Repr

/-- The state. `prog`, `input` and `caps` are the run parameters of R8 and R9, which no step writes
(DESIGN CHOICE, log entries 1 and 2: a step is a function of State alone, so they stand in it); the
rest is the state of R20 to R25. SP and DEPTH are transient inside one step and not stored (R31). -/
structure State where
  /-- PROG (R29); PROG_LEN is its length. -/
  prog  : List Byte
  /-- INPUT (R30); INPUT_LEN is its length. -/
  input : List IoByte
  /-- PROG_CAP, INPUT_CAP, OUT_CAP (R9). -/
  caps  : Config.Caps
  /-- TAPE (R20). -/
  tape  : Memory
  /-- DP, the data pointer (R21). -/
  dp    : Nat
  /-- IP, the instruction pointer (R22). -/
  ip    : Nat
  /-- IC, the input cursor (R23). -/
  ic    : Nat
  /-- OUT, the output buffer, oldest element first (R24). -/
  out   : List IoByte
  /-- FAULT (R25). -/
  fault : FaultReg
deriving DecidableEq, Repr

/-- Why the machine has no next state. The two fatal conditions of the spec are NOT here: they are
values of the FAULT register, written by a step that answers next (R143). -/
inductive Fault where
  /-- Raised by the fetch when STATUS = HALTED: R77 enables no step there and R79 says no state
  changes until `reset`. DESIGN CHOICE, log entry 3. Safe: the machine has no step there either. -/
  | runHalted
  /-- Raised by the fetch when STATUS = FAULTED: R144 enables no step after a fault.
  DESIGN CHOICE, log entry 3. Safe: the machine has no step there either. -/
  | runFaulted
  /-- Raised by a tape access at an index that is not a tape cell (R15 gives MemRead and MemWrite the
  precondition `a < TAPE_LEN`, R57 says such an index cannot be formed). Only in states where DP is
  outside its range, which no run reaches. DESIGN CHOICE, log entry 5. Safe. -/
  | noSuchCell (a : Nat)
deriving DecidableEq, Repr

/-- Why the machine gives no meaning to a step. With the default capacities none of these occurs. -/
inductive Refusal where
  /-- Raised by an arm of `exec` for an instruction without a meaning (none is left). Safe. -/
  | notModelled (mnemonic : String)
  /-- Raised by the fetch when PROG_LEN > PROG_CAP: such a run is given no meaning (R9). Safe as to
  its steps; what the host reads of such a run is log entry 16. -/
  | programTooLong
  /-- Raised by the fetch when INPUT_LEN > INPUT_CAP: such a run is given no meaning (R9). Safe as to
  its steps; what the host reads of such a run is log entry 16. -/
  | inputTooLong
  /-- Raised by `.` when `len(OUT) = OUT_CAP`: that `.` is given no meaning (R9, R110). Safe. -/
  | outputFull
deriving DecidableEq, Repr

/-- What a step or a meaning answers. -/
abbrev Result := Host.Outcome State Fault Refusal

/-- The state at the start of a run (R39) for the parameters the host supplied (R8, R9). -/
def State.start (prog : List Byte) (input : List IoByte) (caps : Config.Caps) : State :=
  { prog := prog, input := input, caps := caps,
    tape := [], dp := 0, ip := 0, ic := 0, out := [], fault := .noFault }

/-- The machine right after reset with nothing loaded: PROG and INPUT empty, capacities unbounded
(R39, R9; DESIGN CHOICE for the empty PROG and INPUT, log entry 1). A program is placed by the host's
`reset` (`hostReset`) or by `withFetchWord`. -/
def State.reset : State := State.start [] [] Config.Caps.unbounded

end Sys2Proof.Machine
end

