-- ==== Sys2Proof/Machine/Ops.lean ====
section
/-! DEFINITION. The named operations on the state: the pseudocode primitives of spec 00_scope.md R15,
taking a fault (60_exceptions.md R143), the advance of IP (30_encoding.md R78), STATUS (10_state.md
R26). There is no return from a fault (R144): only the host's `reset` (HostPort.lean) leaves it. -/

namespace Sys2Proof.Machine

/-! The tape. -/

/-- The value at a tape index. -/
def Memory.read : List TapeEntry → Nat → Cell
  | [], _ => unlistedCell
  | (k, v) :: rest, a => if a = k then v else Memory.read rest a

/-- The tape with the value `v` at index `a` (R15 MemWrite), in canonical form again: writing what an
unlisted index reads as removes the entry. -/
def Memory.write : List TapeEntry → Nat → Cell → List TapeEntry
  | [], a, v => if v = unlistedCell then [] else [(a, v)]
  | (k, w) :: rest, a, v =>
    if a < k then
      if v = unlistedCell then (k, w) :: rest else (a, v) :: (k, w) :: rest
    else if a = k then
      if v = unlistedCell then rest else (a, v) :: rest
    else (k, w) :: Memory.write rest a v

/-! Field updates: every write to the state goes through one of these. -/

def State.setTape (s : State) (m : Memory) : State := { s with tape := m }
def State.setDp (s : State) (a : Nat) : State := { s with dp := a }
def State.setIp (s : State) (p : Nat) : State := { s with ip := p }
def State.setIc (s : State) (k : Nat) : State := { s with ic := k }
def State.setOut (s : State) (o : List IoByte) : State := { s with out := o }
def State.setFault (s : State) (x : FaultReg) : State := { s with fault := x }

/-- `TAPE[a]`. -/
def State.cell (s : State) (a : Nat) : Cell := Memory.read s.tape a

/-! The primitives of R15. -/

/-- MemRead(a, 1): the cell at `a`, no side effect (R54). Outside the tape there is no cell. -/
def memRead (a : Nat) (s : State) : Except Fault Cell :=
  if a < Config.tapeLen then .ok (s.cell a) else .error (.noSuchCell a)

/-- MemWrite(a, 1, v): `TAPE[a] <- v`, every other cell unchanged. -/
def memWrite (a : Nat) (v : Cell) (s : State) : Except Fault State :=
  if a < Config.tapeLen then .ok (s.setTape (Memory.write s.tape a v)) else .error (.noSuchCell a)

/-- ProgRead(p): `PROG[p]`, `none` outside `[0, PROG_LEN)`. -/
def progRead (prog : List Byte) (p : Nat) : Option Byte := prog[p]?

/-- InTake(): `INPUT[IC]`, then `IC <- IC + 1`. Used only when `inAvail` (Flags.lean) holds. -/
def inTake (s : State) : IoByte × State := (s.input.getD s.ic 0#Config.ioW, s.setIc (s.ic + 1))

/-- Whether a length is within a capacity (R9). -/
def withinCap : Option Nat → Nat → Bool
  | none, _ => true
  | some c, n => decide (n ≤ c)

/-- OutAppend(v): `OUT <- OUT ++ [v]`, when OUT has room for it (R9). -/
def outAppend (v : IoByte) (s : State) : Except Refusal State :=
  if withinCap s.caps.out (s.out.length + 1) then .ok (s.setOut (s.out ++ [v])) else .error .outputFull

/-- `raise X` (R143): FAULT gets the code and nothing else is written; IP stays at the faulting
instruction. It is the state the step leaves, so it is a next state (D6; log entry 9). -/
def raise (x : FaultReg) (s : State) : Result := .next (s.setFault x)

/-- `IP <- IP + 1` (R78, sequential). -/
def advance (s : State) : State := s.setIp (s.ip + 1)

/-! Status. -/

/-- STATUS (R26). IP > PROG_LEN, which R22 excludes, counts as HALTED. DESIGN CHOICE, log entry 6. -/
def status (s : State) : Status :=
  match s.fault with
  | .noFault => if s.ip < s.prog.length then .running else .halted
  | .outOfBounds => .faulted
  | .malformedProgram => .faulted

/-- The field CODE of FAULT (R25). -/
def FaultReg.code : FaultReg → BitVec 2
  | .noFault => 0#2
  | .outOfBounds => 1#2
  | .malformedProgram => 2#2

end Sys2Proof.Machine
end

