-- ==== Sys2Proof/Machine/Operands.lean ====
section
/-! DEFINITION. The one operand form that reaches memory: the current cell `cur = TAPE[DP]` (spec
00_scope.md R14, 30_encoding.md R71). All other operands are registers, the end of OUT or the next
element of INPUT, reached by Ops.lean. -/

namespace Sys2Proof.Machine

/-- `v <- MemRead(DP, 1)`, then the rest of the instruction with `v`. -/
def withCur (s : State) (k : Cell → Result) : Result :=
  match memRead s.dp s with
  | .ok v => k v
  | .error r => .fault r

/-- `MemWrite(DP, 1, v)`, then `IP <- IP + 1`: how every instruction that writes the tape ends. -/
def writeCurAdvance (v : Cell) (s : State) : Result :=
  match memWrite s.dp v s with
  | .ok s' => .next (advance s')
  | .error r => .fault r

/-- Read, modify and write the current cell in one step, then advance (R55). -/
def modifyCur (f : Cell → Cell) (s : State) : Result :=
  withCur s (fun v => writeCurAdvance (f v) s)

end Sys2Proof.Machine
end

