-- ==== Sys2Proof/Machine/CellArithmetic.lean ====
section
/-! DEFINITION. `+` and `-` (spec 41_cell_arithmetic.md, sub-block alu_inc_dec_wrap): 8-bit arithmetic
modulo 256 on the current cell, recording nothing about a wrap (R102). -/

namespace Sys2Proof.Machine

/-- `(v + 1) mod 2^CELL_W`, which is modulo 256. -/
def incByte (v : Cell) : Cell := v + 1#Config.cellW

/-- `(v − 1) mod 2^CELL_W`, which is modulo 256. -/
def decByte (v : Cell) : Cell := v - 1#Config.cellW

/-- `+` INC (R100). -/
def execInc (s : State) : Result := modifyCur incByte s

/-- `-` DEC (R101). -/
def execDec (s : State) : Result := modifyCur decByte s

end Sys2Proof.Machine
end

