-- ==== Sys2Proof/Machine/Flags.lean ====
section
/-! DEFINITION. The machine has no flag and no condition code (spec 10_state.md R27). The two
conditions an instruction tests are computed from the state when they are tested and stored nowhere. -/

namespace Sys2Proof.Machine

/-- The is-zero test of `[` and `]`, on all CELL_W bits (41_cell_arithmetic.md R103). -/
def isZero (v : Cell) : Bool := v == 0#Config.cellW

/-- InAvail(): input remains, `IC < INPUT_LEN` (R15, R36). -/
def inAvail (s : State) : Bool := decide (s.ic < s.input.length)

end Sys2Proof.Machine
end

