-- ==== Sys2Proof/Machine/InputOutput.lean ====
section
/-! DEFINITION. `.` and `,` (spec 42_io.md, sub-block input_output_mux). Bytes are raw in both
directions (R112). -/

namespace Sys2Proof.Machine

/-- `.` OUT (R110). -/
def execOut (s : State) : Result :=
  withCur s (fun v =>
    match outAppend v s with
    | .ok s' => .next (advance s')
    | .error r => .refused r)

/-- The mux of R114: the byte `,` writes and the state after the cursor's move: the next input byte
with IC advanced, or 0 with IC unchanged. -/
def inSelect (s : State) : IoByte × State :=
  if inAvail s then inTake s else (0#Config.ioW, s)

/-- `,` IN (R111). -/
def execIn (s : State) : Result := writeCurAdvance (inSelect s).1 (inSelect s).2

end Sys2Proof.Machine
end

