-- ==== Sys2Proof/Syntax.lean ====
section
/-! DEFINITION. The instructions: one constructor per row of spec/opcode_table.json. No instruction has
an operand field (spec 30_encoding.md R71); a NOP carries its byte, so that each of the 248 NOP bytes
is a term of its own and encoding loses nothing. -/

namespace Sys2Proof

/-- The nine instruction classes of R72. -/
inductive Instr where
  /-- `>` RIGHT (R90). -/
  | right
  /-- `<` LEFT (R91). -/
  | left
  /-- `+` INC (R100). -/
  | inc
  /-- `-` DEC (R101). -/
  | dec
  /-- `.` OUT (R110). -/
  | out
  /-- `,` IN (R111). -/
  | inp
  /-- `[` JZ (R121). -/
  | jz
  /-- `]` JNZ (R124). -/
  | jnz
  /-- NOP (R135), with the byte it was written as. -/
  | nop (b : Byte)
deriving DecidableEq, Repr

end Sys2Proof
end

