-- ==== Sys2Proof/Decode.lean ====
section
/-! DEFINITION. The opcode map of spec 30_encoding.md R72, the decoder (total on bytes, R74) and the
encoder. The byte values are ASCII codes, which the spec itself takes from general knowledge (R75, D3).
PRESUMED, log entry 7. -/

namespace Sys2Proof

/-- `>` -/
def Opcode.right : Byte := 0x3E#Config.insnW
/-- `<` -/
def Opcode.left : Byte := 0x3C#Config.insnW
/-- `+` -/
def Opcode.inc : Byte := 0x2B#Config.insnW
/-- `-` -/
def Opcode.dec : Byte := 0x2D#Config.insnW
/-- `.` -/
def Opcode.out : Byte := 0x2E#Config.insnW
/-- `,` -/
def Opcode.inp : Byte := 0x2C#Config.insnW
/-- `[` -/
def Opcode.jz : Byte := 0x5B#Config.insnW
/-- `]` -/
def Opcode.jnz : Byte := 0x5D#Config.insnW

/-- A row of the opcode table: the instruction of the bytes `b` with `b &&& mask = pattern`. -/
structure OpcodeRow where
  mask    : Byte
  pattern : Byte
  instr   : Instr
deriving DecidableEq, Repr

/-- The mask of an exact row: every bit of the byte is compared. -/
def exactMask : Byte := BitVec.allOnes Config.insnW

/-- The eight exact rows of R72 ("a full compare of all 8 bits"). -/
def opcodeRows : List OpcodeRow :=
  [⟨exactMask, Opcode.right, .right⟩, ⟨exactMask, Opcode.left, .left⟩,
   ⟨exactMask, Opcode.inc, .inc⟩, ⟨exactMask, Opcode.dec, .dec⟩,
   ⟨exactMask, Opcode.out, .out⟩, ⟨exactMask, Opcode.inp, .inp⟩,
   ⟨exactMask, Opcode.jz, .jz⟩, ⟨exactMask, Opcode.jnz, .jnz⟩]

/-- Whether a byte is in a row's class. -/
def OpcodeRow.accepts (r : OpcodeRow) (b : Byte) : Bool := b &&& r.mask == r.pattern

/-- R72: test the eight exact rows first, give NOP to whatever is left. -/
def decodeByte (b : Byte) : Instr :=
  match opcodeRows.find? (fun r => r.accepts b) with
  | some r => r.instr
  | none => .nop b

/-- The one reason the decoder rejects bytes: there are none. No byte is rejected (R74). -/
inductive DecodeError where
  | noByte
deriving DecidableEq, Repr

/-- The instruction at the head of a byte sequence and the bytes after it; every instruction is one
byte (R70, R76). -/
def decode : List Byte → Except DecodeError (Instr × List Byte)
  | [] => .error .noByte
  | b :: rest => .ok (decodeByte b, rest)

/-- The byte of an instruction (R72). -/
def encodeByte : Instr → Byte
  | .right => Opcode.right
  | .left => Opcode.left
  | .inc => Opcode.inc
  | .dec => Opcode.dec
  | .out => Opcode.out
  | .inp => Opcode.inp
  | .jz => Opcode.jz
  | .jnz => Opcode.jnz
  | .nop b => b

/-- The bytes of an instruction: exactly one (R70). -/
def encode (i : Instr) : List Byte := [encodeByte i]

/-- The one byte whose bits, numbered as spec/opcode_table.json numbers them, are the low `nbits` bits
of `w`; `none` when they do not fit in the one byte an instruction has (R70). -/
def tableByte (nbits w : Nat) : Option Byte :=
  if w % 2 ^ nbits < 2 ^ Config.insnW then some (BitVec.ofNat Config.insnW (w % 2 ^ nbits)) else none

/-- What the decoder reads from an instruction word of the opcode table. -/
def decodeTableWord (nbits w : Nat) : Option Instr :=
  match tableByte nbits w with
  | none => none
  | some b =>
    match decode [b] with
    | .ok (i, _) => some i
    | .error _ => none

end Sys2Proof
end

