-- ==== Sys2Proof/Machine/Scan.lean ====
section
/-! DEFINITION. The bracket-matching scans of `jump_resolver` (spec 43_jumps.md R123, R125) as pure
functions of PROG and the position of the bracket being executed (R126). SP and DEPTH are arguments
of the loop (R31). `none` is the scan leaving the program, on which the instruction raises
MalformedProgram; no element outside PROG is read (D17). -/

namespace Sys2Proof.Machine

/-- One pass of the forward scan on DEPTH: `[` adds 1, `]` takes 1, every other byte leaves it. -/
def fwdDepth (b : Byte) (depth : Nat) : Nat :=
  if b = Opcode.jz then depth + 1 else if b = Opcode.jnz then depth - 1 else depth

/-- One pass of the backward scan on DEPTH: `]` adds 1, `[` takes 1, every other byte leaves it. -/
def bwdDepth (b : Byte) (depth : Nat) : Nat :=
  if b = Opcode.jnz then depth + 1 else if b = Opcode.jz then depth - 1 else depth

/-- The loop of FwdMatch: the bytes still ahead, the position SP of the first of them, and DEPTH. No
byte ahead is `SP ≥ PROG_LEN`. -/
def fwdScan : List Byte → Nat → Nat → Option Nat
  | [], _, _ => none
  | b :: rest, sp, depth =>
    if fwdDepth b depth = 0 then some sp else fwdScan rest (sp + 1) (fwdDepth b depth)

/-- FwdMatch(p) (R123): the first position examined is `p + 1`, with DEPTH 1. -/
def fwdMatch (prog : List Byte) (p : Nat) : Option Nat := fwdScan (prog.drop (p + 1)) (p + 1) 1

/-- The loop of BwdMatch: the position last examined and DEPTH. At position 0 the next one is before
the start of the program. A position past the end (no run has one) is outside the program too.
DESIGN CHOICE, log entry 6. -/
def bwdScan (prog : List Byte) : Nat → Nat → Option Nat
  | 0, _ => none
  | sp + 1, depth =>
    match progRead prog sp with
    | none => none
    | some b => if bwdDepth b depth = 0 then some sp else bwdScan prog sp (bwdDepth b depth)

/-- BwdMatch(p) (R125): the first position examined is `p − 1`, with DEPTH 1. -/
def bwdMatch (prog : List Byte) (p : Nat) : Option Nat := bwdScan prog p 1

end Sys2Proof.Machine
end

