-- ==== Sys2Proof/Machine/Jumps.lean ====
section
/-! DEFINITION. `[` and `]` (spec 43_jumps.md, sub-block jump_resolver). The scan runs only when the
jump is taken (R122). -/

namespace Sys2Proof.Machine

/-- A taken jump: to just after the match (R126), or MalformedProgram when the scan found none. -/
def takeJump (target : Option Nat) (s : State) : Result :=
  match target with
  | some m => .next (s.setIp (m + 1))
  | none => raise .malformedProgram s

/-- `[` JZ (R121). -/
def execJz (s : State) : Result :=
  withCur s (fun v => if isZero v then takeJump (fwdMatch s.prog s.ip) s else .next (advance s))

/-- `]` JNZ (R124). -/
def execJnz (s : State) : Result :=
  withCur s (fun v => if isZero v then .next (advance s) else takeJump (bwdMatch s.prog s.ip) s)

end Sys2Proof.Machine
end

