-- ==== Sys2Proof/Machine/Noop.lean ====
section
/-! DEFINITION. The no-operation class (spec 44_noop.md): all 248 bytes behave identically (R73). -/

namespace Sys2Proof.Machine

/-- NOP (R135). -/
def execNop (s : State) : Result := .next (advance s)

end Sys2Proof.Machine
end

