-- ==== Sys2Proof/Machine/PointerMoves.lean ====
section
/-! DEFINITION. `>` and `<` (spec 40_pointer_moves.md, sub-block data_pointer_reg). The bound is
checked by the move itself (R93, 90_conflicts.md C2; log entry 8). -/

namespace Sys2Proof.Machine

/-- `>` RIGHT (R90). -/
def execRight (s : State) : Result :=
  if s.dp = Config.tapeLen - 1 then raise .outOfBounds s else .next (advance (s.setDp (s.dp + 1)))

/-- `<` LEFT (R91). -/
def execLeft (s : State) : Result :=
  if s.dp = 0 then raise .outOfBounds s else .next (advance (s.setDp (s.dp - 1)))

end Sys2Proof.Machine
end

