-- ==== Sys2Proof/Machine/Dispatch.lean ====
section
/-! DEFINITION. The dispatch of spec 30_encoding.md R77: one arm per instruction class. -/

namespace Sys2Proof.Machine

def exec (i : Instr) (s : State) : Host.Outcome State Fault Refusal :=
  match i with
  | .right => Sys2Proof.Machine.execRight s
  | .left => Sys2Proof.Machine.execLeft s
  | .inc => Sys2Proof.Machine.execInc s
  | .dec => Sys2Proof.Machine.execDec s
  | .out => Sys2Proof.Machine.execOut s
  | .inp => Sys2Proof.Machine.execIn s
  | .jz => Sys2Proof.Machine.execJz s
  | .jnz => Sys2Proof.Machine.execJnz s
  | .nop _ => Sys2Proof.Machine.execNop s

end Sys2Proof.Machine
end

