-- ==== Sys2Proof/Machine/Fetch.lean ====
section
/-! DEFINITION. Whether a step is enabled and which instruction it runs (spec 30_encoding.md R77), and
how an instruction byte is laid into PROG. -/

namespace Sys2Proof.Machine

/-- What the fetch answers: an instruction to run, or why there is no step. -/
inductive Fetched where
  | run (i : Instr)
  | stop (r : Fault)
  | refuse (r : Refusal)
deriving DecidableEq, Repr

/-- The bytes from IP on. -/
def fetchBytes (s : State) : List Byte := s.prog.drop s.ip

/-- R9: a run whose PROG or INPUT is longer than its capacity is given no meaning. R77: a step is
enabled exactly when STATUS = RUNNING, and then runs `ProgRead(IP)` decoded. -/
def fetch (s : State) : Fetched :=
  if !withinCap s.caps.prog s.prog.length then .refuse .programTooLong
  else if !withinCap s.caps.input s.input.length then .refuse .inputTooLong
  else
    match status s with
    | .halted => .stop .runHalted
    | .faulted => .stop .runFaulted
    | .running =>
      match decode (fetchBytes s) with
      | .ok (i, _) => .run i
      | .error _ => .stop .runHalted

/-- PROG with the byte `b` at position `p`, every other position as it was; a program too short to
have that position is filled up with 0x00, a NOP. -/
def placeByte (prog : List Byte) (p : Nat) (b : Byte) : List Byte :=
  prog.take p ++ List.replicate (p - prog.length) 0#Config.insnW ++ b :: prog.drop (p + 1)

/-- A capacity raised, where it must be, to let a length in. -/
def raiseCap (cap : Option Nat) (n : Nat) : Option Nat := cap.map (fun c => max c n)

/-- `s` made ready to run the byte `b` next: it stands at IP, no fault is recorded, and the run is
within its capacities. -/
def placeAtIp (s : State) (b : Byte) : State :=
  { s with
    prog := placeByte s.prog s.ip b
    fault := .noFault
    caps := { s.caps with
      prog := raiseCap s.caps.prog (placeByte s.prog s.ip b).length
      input := raiseCap s.caps.input s.input.length } }

end Sys2Proof.Machine
end

