-- ==== Sys2Proof/Machine/Step.lean ====
section
/-! DEFINITION. One step of the block (spec 30_encoding.md R77; the granularity of 00_scope.md R11). -/

namespace Sys2Proof.Machine

/-- Fetch, decode and execute one instruction, when a step is enabled. -/
def step (s : State) : Host.Outcome State Fault Refusal :=
  match fetch s with
  | .run i => exec i s
  | .stop r => .fault r
  | .refuse r => .refused r

/-- `s` with an instruction word of the opcode table stored where `step` fetches its next instruction
(log entry 1: it stands for the host's load of a program). A word that fits in no instruction byte
leaves `s` as it is. -/
def State.withFetchWord (s : State) (nbits w : Nat) : State :=
  match tableByte nbits w with
  | some b => placeAtIp s b
  | none => s

end Sys2Proof.Machine
end

