-- ==== Sys2Proof/Machine/HostPort.lean ====
section
/-! DEFINITION. The host's side of the boundary (spec 10_state.md R35 to R38, 70_reset_and_hazards.md
R170 to R177, R183): the one command `reset` and the reads of STATUS, FAULT and OUT. There is no other
move of the host: it cannot pause, step, inspect, or change PROG or INPUT during a run (R175, R176;
log entry 11). -/

namespace Sys2Proof.Machine

/-- `reset` (R170, R172): from any state, the start of a run (R39) on the PROG and INPUT the host has in
place (R174). The capacities belong to the block, not to the run (R9). -/
def hostReset (prog : List Byte) (input : List IoByte) (s : State) : State := State.start prog input s.caps

/-- The host polls STATUS, at any time (R176). Of a run that R9 gives no meaning it reads the same
function of the state. DESIGN CHOICE, log entry 16. -/
def hostStatus (s : State) : Status := status s

/-- The host reads FAULT, at any time (R25, R176). Of a run that R9 gives no meaning it reads the same
function of the state. DESIGN CHOICE, log entry 16. -/
def hostFault (s : State) : BitVec 2 := s.fault.code

/-- The host reads OUT: only when STATUS ≠ RUNNING (R28, R37); after a fault too (R145,
D8; log entry 10). Of a run that
R9 gives no meaning it reads the same function of the state, so with an empty PROG and an INPUT over
INPUT_CAP it reads `[]`. DESIGN CHOICE, log entry 16. -/
def hostOut (s : State) : Option (List IoByte) :=
  match status s with
  | .running => none
  | .halted => some s.out
  | .faulted => some s.out

end Sys2Proof.Machine
end

