-- ==== Sys2Proof/WellFormed.lean ====
section
/-! DEFINITION. Which terms of `Instr` are instructions: the one check is that a NOP's byte is none of
the eight instruction bytes (spec 30_encoding.md R73). -/

namespace Sys2Proof

/-- The `excludes` list of the NOP row of spec/opcode_table.json, the set of R73. -/
def nopExcludes : List Byte :=
  [0x2B#Config.insnW, 0x2C#Config.insnW, 0x2D#Config.insnW, 0x2E#Config.insnW,
   0x3C#Config.insnW, 0x3E#Config.insnW, 0x5B#Config.insnW, 0x5D#Config.insnW]

/-- R73: a NOP is written as one of the 248 bytes outside `nopExcludes`. -/
def Instr.wf : Instr → Bool
  | .right => true
  | .left => true
  | .inc => true
  | .dec => true
  | .out => true
  | .inp => true
  | .jz => true
  | .jnz => true
  | .nop b => !nopExcludes.contains b

end Sys2Proof
end

