-- ==== Sys2Proof/Safety.lean ====
section
/-! DEFINITION. The terms claims are stated in: the invariants of spec 10_state.md R34, runs and what
they executed, and the vocabulary of the bracket scan (43_jumps.md). -/

namespace Sys2Proof.Machine

/-! Invariants. -/

/-- The bytes whose instructions can fault (R34, R142). -/
def faultingBytes : List Byte := [Opcode.right, Opcode.left, Opcode.jz, Opcode.jnz]

/-- R34, every clause: the ranges of DP, IP and IC, the tape's canonical form, and after a fault IP at
one of the four instructions that can fault. -/
abbrev State.Inv (s : State) : Prop :=
  s.dp < Config.tapeLen ∧ s.ip ≤ s.prog.length ∧ s.ic ≤ s.input.length ∧ s.tape.wf = true ∧
  (s.fault ≠ .noFault → ∃ b ∈ faultingBytes, s.prog[s.ip]? = some b)

/-- What R140, R141 and R143 together say of the state a fault leaves: the recorded condition is the
one the instruction at IP meets in that very state. -/
abbrev State.FaultExplained (s : State) : Prop :=
  (s.fault = .outOfBounds →
    (s.prog[s.ip]? = some Opcode.right ∧ s.dp = Config.tapeLen - 1) ∨
    (s.prog[s.ip]? = some Opcode.left ∧ s.dp = 0)) ∧
  (s.fault = .malformedProgram →
    (s.prog[s.ip]? = some Opcode.jz ∧ s.cell s.dp = 0#8 ∧ fwdMatch s.prog s.ip = none) ∨
    (s.prog[s.ip]? = some Opcode.jnz ∧ s.cell s.dp ≠ 0#8 ∧ bwdMatch s.prog s.ip = none))

/-- The run is within its capacities (R9); always so with the default, unbounded. -/
abbrev State.WithinCaps (s : State) : Prop :=
  withinCap s.caps.prog s.prog.length = true ∧ withinCap s.caps.input s.input.length = true

/-- OUT has room for one more byte (R9, the precondition of OutAppend in R15); always so with the
default, unbounded. -/
abbrev State.OutRoom (s : State) : Prop := withinCap s.caps.out (s.out.length + 1) = true

/-- The run parameters (R8, R9) of two states are the same. -/
abbrev SameParams (s t : State) : Prop := t.prog = s.prog ∧ t.input = s.input ∧ t.caps = s.caps

/-- Every tape cell reads in `t` as it does in `s`. -/
abbrev SameTape (s t : State) : Prop := ∀ a, t.cell a = s.cell a

/-! Runs. -/

/-- The instruction at IP, when there is a program byte there. -/
def nextInstr (s : State) : Option Instr := (s.prog[s.ip]?).map decodeByte

/-- One executed instruction of a run: the instruction and the DP it found. -/
structure Event where
  instr : Instr
  dp    : Nat
deriving DecidableEq, Repr

/-- `Trace s es t`: steps lead from `s` to `t`, executing the instructions `es` in this order. -/
inductive Trace : State → List Event → State → Prop where
  | nil (s : State) : Trace s [] s
  | cons {s u t : State} {i : Instr} {es : List Event}
      (hi : nextInstr s = some i) (hs : step s = .next u) (ht : Trace u es t) :
      Trace s (⟨i, s.dp⟩ :: es) t

/-- How many instructions of class `i` a run executed. -/
def executed (i : Instr) (es : List Event) : Nat := es.countP (fun e => e.instr == i)

/-- How many instructions of class `i` a run executed on the cell `a`. -/
def executedAt (i : Instr) (a : Nat) (es : List Event) : Nat :=
  es.countP (fun e => e.instr == i && e.dp == a)

/-- The states a block with the capacities `caps` can be in: from power-on reset with nothing loaded,
by steps and by the host's `reset` with any program and input, in any state (R170, R172). -/
inductive Reachable (caps : Config.Caps) : State → Prop where
  | start : Reachable caps (State.start [] [] caps)
  | hostReset {s : State} (prog : List Byte) (input : List IoByte) (h : Reachable caps s) :
      Reachable caps (hostReset prog input s)
  | step {s t : State} (h : Reachable caps s) (hs : step s = .next t) : Reachable caps t

/-! Brackets. -/

/-- How many more `]` than `[` a piece of program holds. -/
def excess (l : List Byte) : Int := (l.count Opcode.jnz : Int) - (l.count Opcode.jz : Int)

/-- `PROG[i .. j]`, both ends included. -/
def progPiece (prog : List Byte) (i j : Nat) : List Byte := (prog.take (j + 1)).drop i

/-- Balanced brackets (R129): equal numbers of `[` and `]`, and no leading part with more `]`. -/
def BracketsBalanced (prog : List Byte) : Prop := excess prog = 0 ∧ ∀ k, excess (prog.take k) ≤ 0

/-- Neither bracket: a byte the scans pass over (R76). -/
abbrev NonBracket (b : Byte) : Prop := b ≠ Opcode.jz ∧ b ≠ Opcode.jnz

/-- DEPTH after `k` passes of the forward scan from `p` (R123), were it not stopped before. -/
def fwdDepthAfter (prog : List Byte) (p k : Nat) : Nat :=
  ((prog.drop (p + 1)).take k).foldl (fun d b => fwdDepth b d) 1

/-- DEPTH after `k` passes of the backward scan from `p` (R125), were it not stopped before. -/
def bwdDepthAfter (prog : List Byte) (p k : Nat) : Nat :=
  ((prog.take p).reverse.take k).foldl (fun d b => bwdDepth b d) 1

end Sys2Proof.Machine
end

