-- ==== Sys2Proof/Certificates/Slice0/Obligations.lean ====
section
/-! DEFINITION. The statements for the provers. Rules are those of spec/; the byte values in them are
the spec's ASCII values (D3, log entry 7), DP bounds are written out for TAPE_LEN = 30000 (R7). -/

open Sys2Proof Sys2Proof.Machine

/-! Reset and the host's side. -/

/-- R170, R39: `reset`, in any state and with any program and input, puts every piece of state at its
reset value; STATUS is then RUNNING when there is a program and HALTED when it is empty. -/
def Obligations.HostResetEstablishesResetState : Prop :=
  ∀ (s : State) (prog : List Byte) (input : List IoByte),
    (∀ a, (hostReset prog input s).cell a = 0#8) ∧
    (hostReset prog input s).dp = 0 ∧ (hostReset prog input s).ip = 0 ∧
    (hostReset prog input s).ic = 0 ∧ (hostReset prog input s).out = [] ∧
    (hostReset prog input s).fault = .noFault ∧
    (hostReset prog input s).prog = prog ∧ (hostReset prog input s).input = input ∧
    hostStatus (hostReset prog input s) = (if 0 < prog.length then .running else .halted)

/-- R173: two runs of one block started with the same program and input start in the same state,
whatever the runs before them left. -/
def Obligations.HostResetForgetsEarlierRun : Prop :=
  ∀ (s s' : State) (prog : List Byte) (input : List IoByte), s.caps = s'.caps →
    hostReset prog input s = hostReset prog input s'

/-- 10_state.md, OUT and its collection (R28, R37): never while STATUS is RUNNING, and whole when it is
not. That this holds of a FAULTED run too is decision D8 (log entry 10), and of a run over a finite
capacity the model's choice (log entry 16). -/
def Obligations.HostReadsOutputOnlyAfterRunEnds : Prop :=
  ∀ s : State,
    (hostStatus s = .running → hostOut s = none) ∧
    (hostStatus s ≠ .running → hostOut s = some s.out)

/-- 10_state.md, STATUS (R26, decisions D7 and D15): the three cases, for IP in its range. -/
def Obligations.StatusFollowsFaultAndIp : Prop :=
  ∀ s : State, s.ip ≤ s.prog.length →
    (hostStatus s = .faulted ↔ s.fault ≠ .noFault) ∧
    (hostStatus s = .halted ↔ s.fault = .noFault ∧ s.ip = s.prog.length) ∧
    (hostStatus s = .running ↔ s.fault = .noFault ∧ s.ip < s.prog.length)

/-- 10_state.md, FAULT (R25): the host reads 0, 1 or 2 for the three values and never 3. The codes are
the spec's own (decision D7, log entry 9). -/
def Obligations.FaultCodesAreAsNumbered : Prop :=
  ∀ s : State,
    (hostFault s = 0#2 ↔ s.fault = .noFault) ∧ (hostFault s = 1#2 ↔ s.fault = .outOfBounds) ∧
    (hostFault s = 2#2 ↔ s.fault = .malformedProgram) ∧ hostFault s ≠ 3#2

/-! Encoding. -/

/-- 30_encoding.md, the opcode map (R72, R73): each of the eight bytes written out, and every other byte a NOP.
The byte values are ASCII, which the spec takes from general knowledge (D3, log entry 7). -/
def Obligations.DecodeClassifiesEveryByte : Prop :=
  decodeByte 0b00111110#8 = .right ∧ decodeByte 0b00111100#8 = .left ∧
  decodeByte 0b00101011#8 = .inc ∧ decodeByte 0b00101101#8 = .dec ∧
  decodeByte 0b00101110#8 = .out ∧ decodeByte 0b00101100#8 = .inp ∧
  decodeByte 0b01011011#8 = .jz ∧ decodeByte 0b01011101#8 = .jnz ∧
  ∀ b : Byte, b ∉ [0x2B#8, 0x2C#8, 0x2D#8, 0x2E#8, 0x3C#8, 0x3E#8, 0x5B#8, 0x5D#8] →
    decodeByte b = .nop b

/-- Encoding loses nothing: decoding an encoded well-formed instruction, whatever follows it, gives it
back with what follows it. -/
def Obligations.DecodeOfEncodeIsIdentity : Prop :=
  ∀ (i : Instr) (rest : List Byte), i.wf = true → decode (encode i ++ rest) = .ok (i, rest)

/-- The other direction: every non-empty byte sequence decodes (R74), to a well-formed instruction
whose encoding is the byte consumed; only the empty one is rejected. -/
def Obligations.EncodeOfDecodeIsIdentity : Prop :=
  (∀ bytes : List Byte, bytes ≠ [] →
    ∃ i rest, decode bytes = .ok (i, rest) ∧ i.wf = true ∧ encode i ++ rest = bytes) ∧
  decode [] = .error .noByte

/-- An opcode-table word placed at IP is the instruction the next step runs, and placing it leaves the
tape, the registers, OUT, INPUT and every other position of the program alone (log entry 1). -/
def Obligations.TableWordRunsAtIp : Prop :=
  ∀ (s : State) (w : Nat), w < 256 →
    ∃ i, decodeTableWord 8 w = some i ∧
      step (s.withFetchWord 8 w) = exec i (s.withFetchWord 8 w) ∧
      (s.withFetchWord 8 w).tape = s.tape ∧ (s.withFetchWord 8 w).dp = s.dp ∧
      (s.withFetchWord 8 w).ip = s.ip ∧ (s.withFetchWord 8 w).ic = s.ic ∧
      (s.withFetchWord 8 w).out = s.out ∧ (s.withFetchWord 8 w).input = s.input ∧
      ∀ p, p ≠ s.ip → p < s.prog.length → (s.withFetchWord 8 w).prog[p]? = s.prog[p]?

/-! The step. -/

/-- 30_encoding.md, the execution step (R77): with no fault recorded and a byte at IP, the step is
`exec` of the decoded byte, with nothing around it. -/
def Obligations.StepRunsDecodedInstruction : Prop :=
  ∀ (s : State) (b : Byte), s.WithinCaps → s.fault = .noFault → s.prog[s.ip]? = some b →
    step s = exec (decodeByte b) s

/-- 30_encoding.md, the end of a run (R77, R79): in an ended run no step is enabled. That the model
answers a fault of the interface there is log entry 3; the tape-index fault never occurs (R57). -/
def Obligations.StopsExactlyWhenRunHasEnded : Prop :=
  ∀ s : State, s.Inv → s.WithinCaps →
    (step s = .fault .runHalted ↔ hostStatus s = .halted) ∧
    (step s = .fault .runFaulted ↔ hostStatus s = .faulted) ∧
    ∀ a, step s ≠ .fault (.noSuchCell a)

/-- Progress: in every state that meets the invariants, in a run within its capacities, a RUNNING block
takes a step, whatever byte is at IP, unless that byte is `.` and OUT is at a finite capacity (R9; log
entry 2). -/
def Obligations.RunningStepCompletes : Prop :=
  ∀ s : State, s.Inv → s.WithinCaps → hostStatus s = .running →
    (s.OutRoom ∨ s.prog[s.ip]? ≠ some 0x2E#8) → ∃ t, step s = .next t

/-- 00_scope.md, capacities (R9, D10, log entry 2): whatever the capacities, a refused step is one of a
run over PROG_CAP or INPUT_CAP, or runs `.` on a full OUT; a program over PROG_CAP, and a program within
it with an input over INPUT_CAP, are refused by name; with the default, unbounded, nothing ever is. -/
def Obligations.OnlyOverCapacityRunsAreRefused : Prop :=
  ∀ s : State,
    (∀ r, step s = .refused r →
      ¬ s.WithinCaps ∨ (s.prog[s.ip]? = some 0x2E#8 ∧ ¬ s.OutRoom)) ∧
    (∀ c, s.caps.prog = some c → c < s.prog.length → step s = .refused .programTooLong) ∧
    (∀ c, (∀ p, s.caps.prog = some p → s.prog.length ≤ p) →
      s.caps.input = some c → c < s.input.length → step s = .refused .inputTooLong) ∧
    (s.caps = Config.Caps.unbounded → ∀ r, step s ≠ .refused r)

/-! The instructions: where each completes, what it leaves, and its frame. -/

/-- R90: `>` below the last cell adds 1 to DP and to IP and changes nothing else. -/
def Obligations.RightMovesPointerUp : Prop :=
  ∀ s : State, s.dp ≠ 29999 →
    ∃ t, exec .right s = .next t ∧ t.dp = s.dp + 1 ∧ t.ip = s.ip + 1 ∧
      SameTape s t ∧ t.ic = s.ic ∧ t.out = s.out ∧ t.fault = s.fault ∧ SameParams s t

/-- R91: `<` above cell 0 takes 1 from DP, adds 1 to IP and changes nothing else. -/
def Obligations.LeftMovesPointerDown : Prop :=
  ∀ s : State, s.dp ≠ 0 →
    ∃ t, exec .left s = .next t ∧ t.dp + 1 = s.dp ∧ t.ip = s.ip + 1 ∧
      SameTape s t ∧ t.ic = s.ic ∧ t.out = s.out ∧ t.fault = s.fault ∧ SameParams s t

/-- R90, R91 with R143: a move off either end of the tape records OUT_OF_BOUNDS and changes nothing
else, IP and DP included. The moment of the check and the state left are decisions D5 and D6 of the
spec (log entries 8 and 9). -/
def Obligations.MovesOffTapeRaiseOutOfBounds : Prop :=
  ∀ (s : State) (i : Instr), (i = .right ∧ s.dp = 29999) ∨ (i = .left ∧ s.dp = 0) →
    ∃ t, exec i s = .next t ∧ t.fault = .outOfBounds ∧ t.dp = s.dp ∧ t.ip = s.ip ∧
      SameTape s t ∧ t.ic = s.ic ∧ t.out = s.out ∧ SameParams s t

/-- R100: `+` adds 1 modulo 256 to the current cell and 1 to IP and changes nothing else. -/
def Obligations.IncAddsOneModulo256 : Prop :=
  ∀ s : State, s.dp < 30000 → s.tape.wf = true →
    ∃ t, exec .inc s = .next t ∧ (t.cell s.dp).toNat = ((s.cell s.dp).toNat + 1) % 256 ∧
      (∀ a, a ≠ s.dp → t.cell a = s.cell a) ∧ t.ip = s.ip + 1 ∧
      t.dp = s.dp ∧ t.ic = s.ic ∧ t.out = s.out ∧ t.fault = s.fault ∧ SameParams s t

/-- R101: `-` takes 1 modulo 256 from the current cell, adds 1 to IP and changes nothing else. -/
def Obligations.DecSubtractsOneModulo256 : Prop :=
  ∀ s : State, s.dp < 30000 → s.tape.wf = true →
    ∃ t, exec .dec s = .next t ∧
      ((t.cell s.dp).toNat : Int) = (((s.cell s.dp).toNat : Int) - 1) % 256 ∧
      (∀ a, a ≠ s.dp → t.cell a = s.cell a) ∧ t.ip = s.ip + 1 ∧
      t.dp = s.dp ∧ t.ic = s.ic ∧ t.out = s.out ∧ t.fault = s.fault ∧ SameParams s t

/-- R101: `-` undoes `+` and `+` undoes `-`, at every value of the cell, down to the very tape. -/
def Obligations.IncAndDecUndoEachOther : Prop :=
  ∀ (s t u : State) (i j : Instr), (i = .inc ∧ j = .dec) ∨ (i = .dec ∧ j = .inc) →
    s.tape.wf = true → exec i s = .next t → exec j t = .next u → u.tape = s.tape

/-- R110: `.` appends the current cell to OUT, unchanged, adds 1 to IP and changes nothing else; OUT
must have room when OUT_CAP is finite (R9). -/
def Obligations.OutAppendsCurrentCell : Prop :=
  ∀ s : State, s.dp < 30000 → s.OutRoom →
    ∃ t, exec .out s = .next t ∧ t.out = s.out ++ [s.cell s.dp] ∧ t.ip = s.ip + 1 ∧
      SameTape s t ∧ t.dp = s.dp ∧ t.ic = s.ic ∧ t.fault = s.fault ∧ SameParams s t

/-- R9 (decision D10, log entry 2): a `.` on an OUT that holds OUT_CAP bytes is given no meaning. -/
def Obligations.OutRefusedWhenOutputFull : Prop :=
  ∀ (s : State) (c : Nat), s.dp < 30000 → s.caps.out = some c → s.out.length = c →
    exec .out s = .refused .outputFull

/-- R111: `,` writes the next input byte to the current cell and adds 1 to IC, or at end of input
writes 0 and leaves IC; it adds 1 to IP and changes nothing else. -/
def Obligations.InReadsNextByteOrZero : Prop :=
  ∀ s : State, s.dp < 30000 → s.tape.wf = true →
    ∃ t, exec .inp s = .next t ∧
      (∀ h : s.ic < s.input.length, t.cell s.dp = s.input[s.ic] ∧ t.ic = s.ic + 1) ∧
      (s.input.length ≤ s.ic → t.cell s.dp = 0#8 ∧ t.ic = s.ic) ∧
      (∀ a, a ≠ s.dp → t.cell a = s.cell a) ∧ t.ip = s.ip + 1 ∧
      t.dp = s.dp ∧ t.out = s.out ∧ t.fault = s.fault ∧ SameParams s t

/-- R121: `[` goes to the next instruction when the cell is not 0, whatever the program holds, and to
just after the match when the cell is 0 and there is one; it changes nothing but IP. -/
def Obligations.JzFallsThroughOrJumpsForward : Prop :=
  ∀ s : State, s.dp < 30000 →
    (s.cell s.dp ≠ 0#8 → ∃ t, exec .jz s = .next t ∧ t.ip = s.ip + 1 ∧
      SameTape s t ∧ t.dp = s.dp ∧ t.ic = s.ic ∧ t.out = s.out ∧ t.fault = s.fault ∧
      SameParams s t) ∧
    (s.cell s.dp = 0#8 → ∀ m, fwdMatch s.prog s.ip = some m →
      ∃ t, exec .jz s = .next t ∧ t.ip = m + 1 ∧
        SameTape s t ∧ t.dp = s.dp ∧ t.ic = s.ic ∧ t.out = s.out ∧ t.fault = s.fault ∧
        SameParams s t)

/-- R124: `]` goes to the next instruction when the cell is 0, whatever the program holds, and to just
after the match when the cell is not 0 and there is one; it changes nothing but IP. -/
def Obligations.JnzFallsThroughOrJumpsBack : Prop :=
  ∀ s : State, s.dp < 30000 →
    (s.cell s.dp = 0#8 → ∃ t, exec .jnz s = .next t ∧ t.ip = s.ip + 1 ∧
      SameTape s t ∧ t.dp = s.dp ∧ t.ic = s.ic ∧ t.out = s.out ∧ t.fault = s.fault ∧
      SameParams s t) ∧
    (s.cell s.dp ≠ 0#8 → ∀ m, bwdMatch s.prog s.ip = some m →
      ∃ t, exec .jnz s = .next t ∧ t.ip = m + 1 ∧
        SameTape s t ∧ t.dp = s.dp ∧ t.ic = s.ic ∧ t.out = s.out ∧ t.fault = s.fault ∧
        SameParams s t)

/-- R121, R124 with R143: a taken bracket whose scan finds no match records MALFORMED_PROGRAM and
changes nothing else, IP included (decision D6, log entry 9). -/
def Obligations.TakenBracketWithoutMatchRaises : Prop :=
  ∀ (s : State) (i : Instr), s.dp < 30000 →
    (i = .jz ∧ s.cell s.dp = 0#8 ∧ fwdMatch s.prog s.ip = none) ∨
    (i = .jnz ∧ s.cell s.dp ≠ 0#8 ∧ bwdMatch s.prog s.ip = none) →
    ∃ t, exec i s = .next t ∧ t.fault = .malformedProgram ∧ t.ip = s.ip ∧
      SameTape s t ∧ t.dp = s.dp ∧ t.ic = s.ic ∧ t.out = s.out ∧ SameParams s t

/-- 41_cell_arithmetic.md R103 and 43_jumps.md R120, R121, R124, R126: both brackets test the full 8-bit
current cell for 0; `[` jumps when it is 0, `]` when it is not, otherwise each falls through; neither
changes the tape, DP, IC or OUT in any case. That a jump without a match is FAULT = MALFORMED_PROGRAM
(R141) in a next state is decision D7 (log entry 9). -/
def Obligations.BracketsTestCurrentCellForZero : Prop :=
  ∀ (s t : State) (i : Instr), i = .jz ∨ i = .jnz → exec i s = .next t →
    SameTape s t ∧ t.dp = s.dp ∧ t.ic = s.ic ∧ t.out = s.out ∧
    ((i = .jz ↔ (s.cell s.dp).toNat ≠ 0) → t.ip = s.ip + 1 ∧ t.fault = s.fault) ∧
    ((i = .jz ↔ (s.cell s.dp).toNat = 0) →
      (∃ m, (if i = .jz then fwdMatch s.prog s.ip else bwdMatch s.prog s.ip) = some m ∧
        t.ip = m + 1 ∧ t.fault = s.fault) ∨
      ((if i = .jz then fwdMatch s.prog s.ip else bwdMatch s.prog s.ip) = none ∧
        t.fault = .malformedProgram))

/-- R135: a NOP, whichever of the bytes it is, adds 1 to IP and changes nothing else. -/
def Obligations.NopOnlyAdvancesIp : Prop :=
  ∀ (s : State) (b : Byte),
    ∃ t, exec (.nop b) s = .next t ∧ t.ip = s.ip + 1 ∧
      SameTape s t ∧ t.dp = s.dp ∧ t.ic = s.ic ∧ t.out = s.out ∧ t.fault = s.fault ∧
      SameParams s t

/-! The bracket scans. -/

/-- 43_jumps.md, the forward scan (R123): it finds `m` exactly when `m` is the least position after `p`
at which `PROG[p+1 .. m]` holds one more `]` than `[`, and finds nothing exactly when there is none. -/
def Obligations.FwdMatchIsLeastBalancingClose : Prop :=
  ∀ (prog : List Byte) (p : Nat),
    (∀ m, fwdMatch prog p = some m ↔
      p < m ∧ m < prog.length ∧ excess (progPiece prog (p + 1) m) = 1 ∧
      ∀ k, p < k → k < m → excess (progPiece prog (p + 1) k) ≠ 1) ∧
    (fwdMatch prog p = none ↔
      ∀ m, p < m → m < prog.length → excess (progPiece prog (p + 1) m) ≠ 1)

/-- 43_jumps.md, the backward scan (R125): it finds `m` exactly when `m` is the greatest position before
`p` at which `PROG[m .. p−1]` holds one more `[` than `]`, and nothing exactly when there is none. -/
def Obligations.BwdMatchIsGreatestBalancingOpen : Prop :=
  ∀ (prog : List Byte) (p : Nat), p < prog.length →
    (∀ m, bwdMatch prog p = some m ↔
      m < p ∧ excess (progPiece prog m (p - 1)) = -1 ∧
      ∀ k, m < k → k < p → excess (progPiece prog k (p - 1)) ≠ -1) ∧
    (bwdMatch prog p = none ↔ ∀ m, m < p → excess (progPiece prog m (p - 1)) ≠ -1)

/-- 43_jumps.md, the jump target (R126): where the scans can land, and that they land on a bracket of
the other kind. -/
def Obligations.JumpTargetsAreInRange : Prop :=
  ∀ (prog : List Byte) (p m : Nat),
    (fwdMatch prog p = some m →
      p + 2 ≤ m + 1 ∧ m + 1 ≤ prog.length ∧ prog[m]? = some 0x5D#8) ∧
    (bwdMatch prog p = some m → 1 ≤ m + 1 ∧ m + 1 ≤ p ∧ prog[m]? = some 0x5B#8)

/-- 43_jumps.md, termination and DEPTH (R127): while a scan goes on, DEPTH stays between 1 and
PROG_LEN, and it is 0 when the scan has found its match. -/
def Obligations.ScanDepthStaysWithinProgramLength : Prop :=
  ∀ (prog : List Byte) (p : Nat), p < prog.length →
    (∀ k, p + k < prog.length → (∀ m, fwdMatch prog p = some m → p + k < m) →
      1 ≤ fwdDepthAfter prog p k ∧ fwdDepthAfter prog p k ≤ prog.length) ∧
    (∀ m, fwdMatch prog p = some m → fwdDepthAfter prog p (m - p) = 0) ∧
    (∀ k, k ≤ p → (∀ m, bwdMatch prog p = some m → m + k < p) →
      1 ≤ bwdDepthAfter prog p k ∧ bwdDepthAfter prog p k ≤ prog.length) ∧
    (∀ m, bwdMatch prog p = some m → bwdDepthAfter prog p (p - m) = 0)

/-- 43_jumps.md, nesting (R129): in a balanced program every `[` and every `]` has its match, and the two
scans are inverse to each other. -/
def Obligations.BalancedProgramsMatchEveryBracket : Prop :=
  ∀ prog : List Byte, BracketsBalanced prog →
    (∀ p, prog[p]? = some 0x5B#8 → ∃ m, fwdMatch prog p = some m) ∧
    (∀ p, prog[p]? = some 0x5D#8 → ∃ m, bwdMatch prog p = some m) ∧
    (∀ p m, prog[p]? = some 0x5B#8 → prog[m]? = some 0x5D#8 →
      (fwdMatch prog p = some m ↔ bwdMatch prog m = some p))

/-- 30_encoding.md and 43_jumps.md (R76, R129): the scans do not see which non-bracket byte stands
where: replacing one by another changes no match. -/
def Obligations.ScansPassOverNonBracketBytes : Prop :=
  ∀ (prog : List Byte) (q : Nat) (b c : Byte), prog[q]? = some b → NonBracket b → NonBracket c →
    ∀ p, fwdMatch (prog.set q c) p = fwdMatch prog p ∧ bwdMatch (prog.set q c) p = bwdMatch prog p

/-- 43_jumps.md, the jump target (R126): what a taken bracket does to IP and FAULT depends on PROG and
IP alone. -/
def Obligations.JumpOutcomeDependsOnlyOnProgramAndIp : Prop :=
  ∀ (s s' t t' : State) (i : Instr), s'.prog = s.prog → s'.ip = s.ip → s'.fault = s.fault →
    (i = .jz ∧ s.cell s.dp = 0#8 ∧ s'.cell s'.dp = 0#8) ∨
    (i = .jnz ∧ s.cell s.dp ≠ 0#8 ∧ s'.cell s'.dp ≠ 0#8) →
    exec i s = .next t → exec i s' = .next t' → t'.ip = t.ip ∧ t'.fault = t.fault

/-! Faults. -/

/-- 60_exceptions.md, OutOfBounds (R140): a step records OUT_OF_BOUNDS exactly when it runs `>` at the last
cell or `<` at cell 0. The moment of the check is decision D5 (log entry 8). -/
def Obligations.OutOfBoundsRaisedExactlyAtTapeEnds : Prop :=
  ∀ s t : State, step s = .next t →
    (t.fault = .outOfBounds ↔
      (s.prog[s.ip]? = some 0x3E#8 ∧ s.dp = 29999) ∨ (s.prog[s.ip]? = some 0x3C#8 ∧ s.dp = 0))

/-- 60_exceptions.md, MalformedProgram (R141): a step records MALFORMED_PROGRAM exactly when it runs a
bracket whose jump is taken and whose scan leaves the program. -/
def Obligations.MalformedProgramRaisedExactlyByFailedScan : Prop :=
  ∀ s t : State, step s = .next t →
    (t.fault = .malformedProgram ↔
      (s.prog[s.ip]? = some 0x5B#8 ∧ s.cell s.dp = 0#8 ∧ fwdMatch s.prog s.ip = none) ∨
      (s.prog[s.ip]? = some 0x5D#8 ∧ s.cell s.dp ≠ 0#8 ∧ bwdMatch s.prog s.ip = none))

/-- 60_exceptions.md, fault entry (R143, decision D6, log entry 9): a step that records a fault writes
nothing else. -/
def Obligations.FaultingStepWritesOnlyFault : Prop :=
  ∀ s t : State, step s = .next t → t.fault ≠ .noFault →
    t.tape = s.tape ∧ t.dp = s.dp ∧ t.ip = s.ip ∧ t.ic = s.ic ∧ t.out = s.out ∧ SameParams s t

/-- 60_exceptions.md, the finality of a fault (R144): after a fault no step is enabled, and `reset` starts
a new run that keeps nothing of the old one. That the new run has the block's capacities is the model's
choice (log entry 2). -/
def Obligations.FaultIsFinalUntilReset : Prop :=
  ∀ s : State, s.fault ≠ .noFault →
    (∀ t, step s ≠ .next t) ∧
    ∀ prog input, (hostReset prog input s).fault = .noFault ∧
      hostReset prog input s = State.start prog input s.caps

/-- 60_exceptions.md, partial output (R145, decision D8, log entry 10): after the step that faults, the
host reads every byte appended before it. -/
def Obligations.OutputBeforeFaultIsKept : Prop :=
  ∀ s t : State, step s = .next t → t.fault ≠ .noFault →
    hostStatus t = .faulted ∧ hostOut t = some s.out

/-! Rules about the whole machine. -/

/-- R8: no instruction changes PROG or INPUT, so neither changes length. -/
def Obligations.StepKeepsRunParameters : Prop :=
  ∀ s t : State, step s = .next t → t.prog = s.prog ∧ t.input = s.input

/-- 10_state.md, the `written by` column (R20 to R25): each piece of state is written only by the
instructions listed for it, and the tape only at DP. -/
def Obligations.OnlyListedInstructionsWriteEachState : Prop :=
  ∀ s t : State, step s = .next t →
    ∃ b, s.prog[s.ip]? = some b ∧
      (t.dp ≠ s.dp → b = 0x3E#8 ∨ b = 0x3C#8) ∧
      (t.ic ≠ s.ic → b = 0x2C#8) ∧
      (t.out ≠ s.out → b = 0x2E#8) ∧
      (∀ a, t.cell a ≠ s.cell a → a = s.dp ∧ (b = 0x2B#8 ∨ b = 0x2D#8 ∨ b = 0x2C#8)) ∧
      (t.fault ≠ s.fault → b = 0x3E#8 ∨ b = 0x3C#8 ∨ b = 0x5B#8 ∨ b = 0x5D#8)

/-- 30_encoding.md, the advance of IP (R78; a faulting instruction leaves IP by decision D6, log entry
9): IP goes to the next instruction, or to just after the match when a bracket's jump is taken. -/
def Obligations.IpAdvancesOrJumpsPastMatch : Prop :=
  ∀ s t : State, step s = .next t →
    (t.fault ≠ .noFault → t.ip = s.ip) ∧
    (t.fault = .noFault →
      (s.prog[s.ip]? = some 0x5B#8 ∧ s.cell s.dp = 0#8 ∧
        ∃ m, fwdMatch s.prog s.ip = some m ∧ t.ip = m + 1) ∨
      (s.prog[s.ip]? = some 0x5D#8 ∧ s.cell s.dp ≠ 0#8 ∧
        ∃ m, bwdMatch s.prog s.ip = some m ∧ t.ip = m + 1) ∨
      (¬ (s.prog[s.ip]? = some 0x5B#8 ∧ s.cell s.dp = 0#8) ∧
        ¬ (s.prog[s.ip]? = some 0x5D#8 ∧ s.cell s.dp ≠ 0#8) ∧ t.ip = s.ip + 1)) ∧
    t.ip ≤ s.prog.length

/-- R24: OUT starts empty, only `.` writes it, by appending the current cell; its length is the number
of `.` executed; and no instruction reads it: whatever OUT holds, an instruction does the same to
everything else and appends the same (an `.` where there is room for it, R9). -/
def Obligations.OutputIsAppendOnlyAndNeverRead : Prop :=
  (∀ prog input caps, (State.start prog input caps).out = []) ∧
  (∀ s t : State, step s = .next t →
    t.out = s.out ∨ (nextInstr s = some .out ∧ t.out = s.out ++ [s.cell s.dp])) ∧
  (∀ (s t : State) (es : List Event), Trace s es t →
    ∃ added, t.out = s.out ++ added ∧ added.length = executed .out es) ∧
  (∀ (s t : State) (i : Instr) (o : List IoByte), (i = .out → (s.setOut o).OutRoom) →
    exec i s = .next t →
    ∃ added, t.out = s.out ++ added ∧ exec i (s.setOut o) = .next (t.setOut (o ++ added)))

/-- 10_state.md, IC (R23): the cursor starts at 0, never goes back, never exceeds INPUT_LEN, and moves
only by 1, only at a `,` with input remaining. -/
def Obligations.CursorOnlyMovesForwardWithinInput : Prop :=
  (∀ prog input caps, (State.start prog input caps).ic = 0) ∧
  ∀ s t : State, s.ic ≤ s.input.length → step s = .next t →
    t.ic ≤ t.input.length ∧
    (t.ic = s.ic ∨ (nextInstr s = some .inp ∧ s.ic < s.input.length ∧ t.ic = s.ic + 1))

/-- 42_io.md (R30, R113): an instruction other than `,` does the same whatever the input is. -/
def Obligations.UnreadInputHasNoEffect : Prop :=
  ∀ (s t : State) (i : Instr) (x : List IoByte), i ≠ .inp → exec i s = .next t →
    exec i { s with input := x } = .next { t with input := x }

/-- 10_state.md, the tape (R20): no instruction reads a cell other than the current one: states that
differ in other cells only are treated alike. -/
def Obligations.OnlyTheCurrentCellIsRead : Prop :=
  ∀ (s t : State) (i : Instr) (m : Memory), s.tape.wf = true → m.wf = true →
    (s.setTape m).cell s.dp = s.cell s.dp → exec i s = .next t →
    ∃ t', exec i (s.setTape m) = .next t' ∧ t'.cell s.dp = t.cell s.dp ∧
      t'.dp = t.dp ∧ t'.ip = t.ip ∧ t'.ic = t.ic ∧ t'.out = t.out ∧ t'.fault = t.fault ∧
      ∀ a, a ≠ s.dp → t'.cell a = (s.setTape m).cell a

/-! Laws of runs. -/

/-- 40_pointer_moves.md (R92): over a run without a fault, DP moves by the number of `>` less the
number of `<` executed. -/
def Obligations.PointerMovesByRightsLessLefts : Prop :=
  ∀ (s t : State) (es : List Event), Trace s es t → t.fault = .noFault →
    (t.dp : Int) = (s.dp : Int) + (executed .right es : Int) - (executed .left es : Int)

/-- R102: a cell holds `(v0 + p − q) mod 256` after `p` executed `+` and `q` executed `-` on it and
no `,`. -/
def Obligations.CellHoldsIncsLessDecsModulo256 : Prop :=
  ∀ (s t : State) (es : List Event) (a : Nat), s.tape.wf = true → Trace s es t →
    executedAt .inp a es = 0 →
    ((t.cell a).toNat : Int) =
      (((s.cell a).toNat : Int) + (executedAt .inc a es : Int) - (executedAt .dec a es : Int)) % 256

/-- 20_memory.md (R59): a cell keeps its value, for any number of steps, until an instruction that
writes the tape is executed on it. -/
def Obligations.CellKeepsValueUntilWritten : Prop :=
  ∀ (s t : State) (es : List Event) (a : Nat), Trace s es t →
    executedAt .inc a es = 0 → executedAt .dec a es = 0 → executedAt .inp a es = 0 →
    t.cell a = s.cell a

/-- 42_io.md, the cursor law (R113): from the start of a run, after `k` executed `,` the cursor is
`min(k, INPUT_LEN)`, and the next `,` writes `INPUT[k]` while there is one and 0 after. -/
def Obligations.CursorCountsExecutedInputs : Prop :=
  ∀ (prog : List Byte) (input : List IoByte) (caps : Config.Caps) (u : State) (es : List Event),
    Trace (State.start prog input caps) es u →
    u.ic = min (executed .inp es) input.length ∧
    ∀ t, nextInstr u = some .inp → step u = .next t →
      t.cell u.dp = input.getD (executed .inp es) 0#8

/-! Invariants. -/

/-- 10_state.md, invariants (R34): the state at the start of every run meets them, and so does the
state right after reset. -/
def Obligations.StartStatesMeetInvariants : Prop :=
  State.reset.Inv ∧ State.reset.FaultExplained ∧
  ∀ (s : State) (prog : List Byte) (input : List IoByte),
    (hostReset prog input s).Inv ∧ (hostReset prog input s).FaultExplained

/-- 10_state.md, invariants (R34): every step keeps every one of them, from every state that has
them. -/
def Obligations.StepKeepsInvariants : Prop :=
  ∀ s t : State, s.Inv → step s = .next t → t.Inv

/-- 60_exceptions.md (R140, R141, R143): in the state a step leaves, a recorded fault is one that the
instruction at IP raises in that very state. -/
def Obligations.RecordedFaultIsExplainedByState : Prop :=
  ∀ s t : State, step s = .next t → t.FaultExplained

/-- Every state a block can be in, by steps and by resets with any program and input in any state (the
host's moves of log entry 11, decision D14), meets the invariants, its recorded fault is explained by
the state, its capacities are the block's (log entry 2), and OUT is within a finite OUT_CAP. -/
def Obligations.ReachableStatesMeetInvariants : Prop :=
  ∀ (caps : Config.Caps) (s : State), Reachable caps s →
    s.Inv ∧ s.FaultExplained ∧ s.caps = caps ∧ ∀ c, caps.out = some c → s.out.length ≤ c

/-- The canonical form is one (R20): tapes that read alike at every index are equal as data. -/
def Obligations.TapesThatReadAlikeAreEqual : Prop :=
  ∀ m m' : Memory, m.wf = true → m'.wf = true → (∀ a, Memory.read m a = Memory.read m' a) → m = m'

/-- 00_scope.md, register widths (R10, decision D9): in every state that meets the invariants, DP fits
in 15 bits, and IP and IC in the widths of any capacity that holds the program and the input. -/
def Obligations.RegistersFitTheirHardwareWidths : Prop :=
  ∀ s : State, s.Inv →
    s.dp < 2 ^ Config.dpWidth ∧
    (∀ c, s.prog.length ≤ c → s.ip < 2 ^ Config.widthFor c) ∧
    (∀ c, s.input.length ≤ c → s.ic < 2 ^ Config.widthFor c)

/-- 00_scope.md, capacities (R9, D10): PROG_CAP, INPUT_CAP and OUT_CAP belong to the block: no step and
no reset changes them. That they stand in the State is the model's choice (log entry 2). -/
def Obligations.StepsAndResetsKeepCapacities : Prop :=
  (∀ s t : State, step s = .next t → t.caps = s.caps) ∧
  ∀ (s : State) (prog : List Byte) (input : List IoByte), (hostReset prog input s).caps = s.caps
end

