-- ==== Sys2Proof/Laws/Decode.lean ====
section
/-! SUPPORT. The decoder on the eight instruction bytes, and on the rest. -/

namespace Sys2Proof

/-! The opcode constants as 8-bit literals (INSN_W = 8). -/

theorem Opcode.right_eq : Opcode.right = 0x3E#8 := rfl
theorem Opcode.left_eq : Opcode.left = 0x3C#8 := rfl
theorem Opcode.inc_eq : Opcode.inc = 0x2B#8 := rfl
theorem Opcode.dec_eq : Opcode.dec = 0x2D#8 := rfl
theorem Opcode.out_eq : Opcode.out = 0x2E#8 := rfl
theorem Opcode.inp_eq : Opcode.inp = 0x2C#8 := rfl
theorem Opcode.jz_eq : Opcode.jz = 0x5B#8 := rfl
theorem Opcode.jnz_eq : Opcode.jnz = 0x5D#8 := rfl

@[simp] theorem decodeByte_right : decodeByte Opcode.right = .right := by decide
@[simp] theorem decodeByte_left : decodeByte Opcode.left = .left := by decide
@[simp] theorem decodeByte_inc : decodeByte Opcode.inc = .inc := by decide
@[simp] theorem decodeByte_dec : decodeByte Opcode.dec = .dec := by decide
@[simp] theorem decodeByte_out : decodeByte Opcode.out = .out := by decide
@[simp] theorem decodeByte_inp : decodeByte Opcode.inp = .inp := by decide
@[simp] theorem decodeByte_jz : decodeByte Opcode.jz = .jz := by decide
@[simp] theorem decodeByte_jnz : decodeByte Opcode.jnz = .jnz := by decide

/-- Which byte a decoded instruction was, one case per class. -/
theorem decodeByte_cases (b : Byte) :
    (b = Opcode.right ∧ decodeByte b = .right) ∨ (b = Opcode.left ∧ decodeByte b = .left) ∨
    (b = Opcode.inc ∧ decodeByte b = .inc) ∨ (b = Opcode.dec ∧ decodeByte b = .dec) ∨
    (b = Opcode.out ∧ decodeByte b = .out) ∨ (b = Opcode.inp ∧ decodeByte b = .inp) ∨
    (b = Opcode.jz ∧ decodeByte b = .jz) ∨ (b = Opcode.jnz ∧ decodeByte b = .jnz) ∨
    (b ∉ nopExcludes ∧ decodeByte b = .nop b) := by
  by_cases h : b ∈ nopExcludes
  · simp only [nopExcludes, List.mem_cons, List.not_mem_nil, or_false] at h
    rcases h with rfl | rfl | rfl | rfl | rfl | rfl | rfl | rfl <;> decide
  · have hn : decodeByte b = .nop b := by
      simp only [nopExcludes, List.mem_cons, List.not_mem_nil, or_false, not_or] at h
      have hm : b &&& exactMask = b := BitVec.and_allOnes
      have hf : opcodeRows.find? (fun r => r.accepts b) = none := by
        simp only [List.find?_eq_none, opcodeRows, List.forall_mem_cons, OpcodeRow.accepts, hm]
        simp [Opcode.right, Opcode.left, Opcode.inc, Opcode.dec, Opcode.out, Opcode.inp,
          Opcode.jz, Opcode.jnz, h]
      simp [decodeByte, hf]
    exact .inr (.inr (.inr (.inr (.inr (.inr (.inr (.inr ⟨h, hn⟩)))))))

/-- An 8-bit table word is the one byte with that value. -/
theorem tableByte_word {w : Nat} (h : w < 256) : tableByte 8 w = some (BitVec.ofNat 8 w) := by
  rw [tableByte, Nat.mod_eq_of_lt (by simpa using h)]
  exact if_pos h

end Sys2Proof
end

