-- ==== Sys2Proof/Laws/Memory.lean ====
section
/-! SUPPORT. The laws of the tape: what a read finds after a write, and that a write keeps the
canonical form. -/

namespace Sys2Proof.Machine.Memory

@[simp] theorem read_nil (a : Nat) : read [] a = unlistedCell := rfl

theorem read_cons (k : Nat) (v : Cell) (rest : List TapeEntry) (a : Nat) :
    read ((k, v) :: rest) a = if a = k then v else read rest a := rfl

/-- The parts of the canonical form of a tape that lists a cell. -/
theorem wfFrom_cons {lo k : Nat} {v : Cell} {rest : List TapeEntry} :
    wfFrom lo ((k, v) :: rest) = true ↔
      lo ≤ k ∧ k < Config.tapeLen ∧ v ≠ unlistedCell ∧ wfFrom (k + 1) rest = true := by
  simp [wfFrom, and_assoc]

theorem wfFrom_mono {lo lo' : Nat} {m : List TapeEntry} (hlo : lo' ≤ lo)
    (h : wfFrom lo m = true) : wfFrom lo' m = true := by
  cases m with
  | nil => rfl
  | cons c rest =>
    obtain ⟨k, v⟩ := c
    rw [wfFrom_cons] at h ⊢
    exact ⟨hlo.trans h.1, h.2⟩

/-- Below the first index a canonical tape may list, every cell reads as unlisted. -/
theorem read_of_lt {lo a : Nat} {m : List TapeEntry} (h : wfFrom lo m = true) (ha : a < lo) :
    read m a = unlistedCell := by
  induction m generalizing lo with
  | nil => rfl
  | cons c rest ih =>
    obtain ⟨k, v⟩ := c
    rw [wfFrom_cons] at h
    rw [read_cons, if_neg (by omega)]
    exact ih h.2.2.2 (by omega)

/-- Outside the tape a canonical tape lists nothing. -/
theorem read_of_tapeLen_le {lo a : Nat} {m : List TapeEntry} (h : wfFrom lo m = true)
    (ha : Config.tapeLen ≤ a) : read m a = unlistedCell := by
  induction m generalizing lo with
  | nil => rfl
  | cons c rest ih =>
    obtain ⟨k, v⟩ := c
    rw [wfFrom_cons] at h
    rw [read_cons, if_neg (by omega)]
    exact ih h.2.2.2

theorem read_write_other (m : List TapeEntry) {a b : Nat} (v : Cell) (hab : b ≠ a) :
    read (write m a v) b = read m b := by
  induction m with
  | nil => unfold write; split <;> simp [read_cons, hab]
  | cons c rest ih =>
    obtain ⟨k, w⟩ := c
    unfold write
    split
    · split <;> simp [read_cons, hab]
    · split
      · next h => subst h; split <;> simp [read_cons, hab]
      · simp [read_cons, ih]

theorem read_write_same_from {lo : Nat} {m : List TapeEntry} (a : Nat) (v : Cell)
    (h : wfFrom lo m = true) : read (write m a v) a = v := by
  induction m generalizing lo with
  | nil => unfold write; split <;> simp_all [read_cons]
  | cons c rest ih =>
    obtain ⟨k, w⟩ := c
    have hc := wfFrom_cons.mp h
    unfold write
    split
    · next hak =>
      split
      · next hv => rw [hv, read_cons, if_neg (by omega)]; exact read_of_lt hc.2.2.2 (by omega)
      · simp [read_cons]
    · split
      · next hak =>
        split
        · next hv => rw [hv]; exact read_of_lt hc.2.2.2 (by omega)
        · simp [read_cons]
      · next hne => rw [read_cons, if_neg hne]; exact ih hc.2.2.2

/-- A read of the cell just written gives the value written. -/
theorem read_write_same {m : Memory} (a : Nat) (v : Cell) (h : m.wf = true) :
    read (write m a v) a = v := read_write_same_from a v h

theorem write_wfFrom {lo a : Nat} {m : List TapeEntry} (v : Cell) (h : wfFrom lo m = true)
    (hlo : lo ≤ a) (ha : a < Config.tapeLen) : wfFrom lo (write m a v) = true := by
  induction m generalizing lo with
  | nil =>
    unfold write
    split
    · rfl
    · next hv => exact wfFrom_cons.mpr ⟨hlo, ha, hv, rfl⟩
  | cons c rest ih =>
    obtain ⟨k, w⟩ := c
    have hc := wfFrom_cons.mp h
    unfold write
    split
    · next hak =>
      split
      · exact h
      · next hv =>
        exact wfFrom_cons.mpr ⟨hlo, ha, hv, wfFrom_cons.mpr ⟨by omega, hc.2.1, hc.2.2.1, hc.2.2.2⟩⟩
    · split
      · next hak =>
        split
        · exact wfFrom_mono (by omega) hc.2.2.2
        · next hv => exact wfFrom_cons.mpr ⟨hlo, ha, hv, hak ▸ hc.2.2.2⟩
      · exact wfFrom_cons.mpr ⟨hc.1, hc.2.1, hc.2.2.1, ih hc.2.2.2 (by omega)⟩

/-- A write inside the tape keeps the canonical form. -/
theorem write_wf {a : Nat} {m : Memory} (v : Cell) (h : m.wf = true) (ha : a < Config.tapeLen) :
    wf (write m a v) = true := write_wfFrom v h (Nat.zero_le a) ha

end Sys2Proof.Machine.Memory
end

