-- ==== Sys2Proof/Laws/State.lean ====
section
/-! SUPPORT. One lemma per field per update of the state, so that no proof unfolds a record update. -/

namespace Sys2Proof.Machine

/-- A listed cell is the (address, byte) pair of the host's interface, CELL_W being 8 (R7). -/
theorem tapeEntry_is_hostCell : TapeEntry = Host.Cell := rfl

@[simp] theorem State.setTape_prog (s : State) (m : Memory) : (s.setTape m).prog = s.prog := rfl
@[simp] theorem State.setTape_input (s : State) (m : Memory) : (s.setTape m).input = s.input := rfl
@[simp] theorem State.setTape_caps (s : State) (m : Memory) : (s.setTape m).caps = s.caps := rfl
@[simp] theorem State.setTape_tape (s : State) (m : Memory) : (s.setTape m).tape = m := rfl
@[simp] theorem State.setTape_dp (s : State) (m : Memory) : (s.setTape m).dp = s.dp := rfl
@[simp] theorem State.setTape_ip (s : State) (m : Memory) : (s.setTape m).ip = s.ip := rfl
@[simp] theorem State.setTape_ic (s : State) (m : Memory) : (s.setTape m).ic = s.ic := rfl
@[simp] theorem State.setTape_out (s : State) (m : Memory) : (s.setTape m).out = s.out := rfl
@[simp] theorem State.setTape_fault (s : State) (m : Memory) : (s.setTape m).fault = s.fault := rfl
@[simp] theorem State.setTape_cell (s : State) (m : Memory) (i : Nat) : (s.setTape m).cell i = Memory.read m i := rfl

@[simp] theorem State.setDp_prog (s : State) (a : Nat) : (s.setDp a).prog = s.prog := rfl
@[simp] theorem State.setDp_input (s : State) (a : Nat) : (s.setDp a).input = s.input := rfl
@[simp] theorem State.setDp_caps (s : State) (a : Nat) : (s.setDp a).caps = s.caps := rfl
@[simp] theorem State.setDp_tape (s : State) (a : Nat) : (s.setDp a).tape = s.tape := rfl
@[simp] theorem State.setDp_dp (s : State) (a : Nat) : (s.setDp a).dp = a := rfl
@[simp] theorem State.setDp_ip (s : State) (a : Nat) : (s.setDp a).ip = s.ip := rfl
@[simp] theorem State.setDp_ic (s : State) (a : Nat) : (s.setDp a).ic = s.ic := rfl
@[simp] theorem State.setDp_out (s : State) (a : Nat) : (s.setDp a).out = s.out := rfl
@[simp] theorem State.setDp_fault (s : State) (a : Nat) : (s.setDp a).fault = s.fault := rfl
@[simp] theorem State.setDp_cell (s : State) (a : Nat) (i : Nat) : (s.setDp a).cell i = s.cell i := rfl

@[simp] theorem State.setIp_prog (s : State) (p : Nat) : (s.setIp p).prog = s.prog := rfl
@[simp] theorem State.setIp_input (s : State) (p : Nat) : (s.setIp p).input = s.input := rfl
@[simp] theorem State.setIp_caps (s : State) (p : Nat) : (s.setIp p).caps = s.caps := rfl
@[simp] theorem State.setIp_tape (s : State) (p : Nat) : (s.setIp p).tape = s.tape := rfl
@[simp] theorem State.setIp_dp (s : State) (p : Nat) : (s.setIp p).dp = s.dp := rfl
@[simp] theorem State.setIp_ip (s : State) (p : Nat) : (s.setIp p).ip = p := rfl
@[simp] theorem State.setIp_ic (s : State) (p : Nat) : (s.setIp p).ic = s.ic := rfl
@[simp] theorem State.setIp_out (s : State) (p : Nat) : (s.setIp p).out = s.out := rfl
@[simp] theorem State.setIp_fault (s : State) (p : Nat) : (s.setIp p).fault = s.fault := rfl
@[simp] theorem State.setIp_cell (s : State) (p : Nat) (i : Nat) : (s.setIp p).cell i = s.cell i := rfl

@[simp] theorem State.setIc_prog (s : State) (k : Nat) : (s.setIc k).prog = s.prog := rfl
@[simp] theorem State.setIc_input (s : State) (k : Nat) : (s.setIc k).input = s.input := rfl
@[simp] theorem State.setIc_caps (s : State) (k : Nat) : (s.setIc k).caps = s.caps := rfl
@[simp] theorem State.setIc_tape (s : State) (k : Nat) : (s.setIc k).tape = s.tape := rfl
@[simp] theorem State.setIc_dp (s : State) (k : Nat) : (s.setIc k).dp = s.dp := rfl
@[simp] theorem State.setIc_ip (s : State) (k : Nat) : (s.setIc k).ip = s.ip := rfl
@[simp] theorem State.setIc_ic (s : State) (k : Nat) : (s.setIc k).ic = k := rfl
@[simp] theorem State.setIc_out (s : State) (k : Nat) : (s.setIc k).out = s.out := rfl
@[simp] theorem State.setIc_fault (s : State) (k : Nat) : (s.setIc k).fault = s.fault := rfl
@[simp] theorem State.setIc_cell (s : State) (k : Nat) (i : Nat) : (s.setIc k).cell i = s.cell i := rfl

@[simp] theorem State.setOut_prog (s : State) (o : List IoByte) : (s.setOut o).prog = s.prog := rfl
@[simp] theorem State.setOut_input (s : State) (o : List IoByte) : (s.setOut o).input = s.input := rfl
@[simp] theorem State.setOut_caps (s : State) (o : List IoByte) : (s.setOut o).caps = s.caps := rfl
@[simp] theorem State.setOut_tape (s : State) (o : List IoByte) : (s.setOut o).tape = s.tape := rfl
@[simp] theorem State.setOut_dp (s : State) (o : List IoByte) : (s.setOut o).dp = s.dp := rfl
@[simp] theorem State.setOut_ip (s : State) (o : List IoByte) : (s.setOut o).ip = s.ip := rfl
@[simp] theorem State.setOut_ic (s : State) (o : List IoByte) : (s.setOut o).ic = s.ic := rfl
@[simp] theorem State.setOut_out (s : State) (o : List IoByte) : (s.setOut o).out = o := rfl
@[simp] theorem State.setOut_fault (s : State) (o : List IoByte) : (s.setOut o).fault = s.fault := rfl
@[simp] theorem State.setOut_cell (s : State) (o : List IoByte) (i : Nat) : (s.setOut o).cell i = s.cell i := rfl

@[simp] theorem State.setFault_prog (s : State) (x : FaultReg) : (s.setFault x).prog = s.prog := rfl
@[simp] theorem State.setFault_input (s : State) (x : FaultReg) : (s.setFault x).input = s.input := rfl
@[simp] theorem State.setFault_caps (s : State) (x : FaultReg) : (s.setFault x).caps = s.caps := rfl
@[simp] theorem State.setFault_tape (s : State) (x : FaultReg) : (s.setFault x).tape = s.tape := rfl
@[simp] theorem State.setFault_dp (s : State) (x : FaultReg) : (s.setFault x).dp = s.dp := rfl
@[simp] theorem State.setFault_ip (s : State) (x : FaultReg) : (s.setFault x).ip = s.ip := rfl
@[simp] theorem State.setFault_ic (s : State) (x : FaultReg) : (s.setFault x).ic = s.ic := rfl
@[simp] theorem State.setFault_out (s : State) (x : FaultReg) : (s.setFault x).out = s.out := rfl
@[simp] theorem State.setFault_fault (s : State) (x : FaultReg) : (s.setFault x).fault = x := rfl
@[simp] theorem State.setFault_cell (s : State) (x : FaultReg) (i : Nat) : (s.setFault x).cell i = s.cell i := rfl

@[simp] theorem advance_prog (s : State) : (advance s).prog = s.prog := rfl
@[simp] theorem advance_input (s : State) : (advance s).input = s.input := rfl
@[simp] theorem advance_caps (s : State) : (advance s).caps = s.caps := rfl
@[simp] theorem advance_tape (s : State) : (advance s).tape = s.tape := rfl
@[simp] theorem advance_dp (s : State) : (advance s).dp = s.dp := rfl
@[simp] theorem advance_ip (s : State) : (advance s).ip = s.ip + 1 := rfl
@[simp] theorem advance_ic (s : State) : (advance s).ic = s.ic := rfl
@[simp] theorem advance_out (s : State) : (advance s).out = s.out := rfl
@[simp] theorem advance_fault (s : State) : (advance s).fault = s.fault := rfl
@[simp] theorem advance_cell (s : State) (i : Nat) : (advance s).cell i = s.cell i := rfl

@[simp] theorem State.start_prog (prog : List Byte) (input : List IoByte) (caps : Config.Caps) :
    (State.start prog input caps).prog = prog := rfl
@[simp] theorem State.start_input (prog : List Byte) (input : List IoByte) (caps : Config.Caps) :
    (State.start prog input caps).input = input := rfl
@[simp] theorem State.start_caps (prog : List Byte) (input : List IoByte) (caps : Config.Caps) :
    (State.start prog input caps).caps = caps := rfl
@[simp] theorem State.start_tape (prog : List Byte) (input : List IoByte) (caps : Config.Caps) :
    (State.start prog input caps).tape = [] := rfl
@[simp] theorem State.start_dp (prog : List Byte) (input : List IoByte) (caps : Config.Caps) :
    (State.start prog input caps).dp = 0 := rfl
@[simp] theorem State.start_ip (prog : List Byte) (input : List IoByte) (caps : Config.Caps) :
    (State.start prog input caps).ip = 0 := rfl
@[simp] theorem State.start_ic (prog : List Byte) (input : List IoByte) (caps : Config.Caps) :
    (State.start prog input caps).ic = 0 := rfl
@[simp] theorem State.start_out (prog : List Byte) (input : List IoByte) (caps : Config.Caps) :
    (State.start prog input caps).out = [] := rfl
@[simp] theorem State.start_fault (prog : List Byte) (input : List IoByte) (caps : Config.Caps) :
    (State.start prog input caps).fault = .noFault := rfl
@[simp] theorem State.start_cell (prog : List Byte) (input : List IoByte) (caps : Config.Caps) (i : Nat) :
    (State.start prog input caps).cell i = 0#8 := rfl

/-- The tape at reset is in canonical form. -/
theorem reset_tape_wf : State.reset.tape.wf = true := rfl

@[simp] theorem read_tape (s : State) (i : Nat) : Memory.read s.tape i = s.cell i := rfl

end Sys2Proof.Machine
end

