-- ==== Sys2Proof/Laws/Ops.lean ====
section
/-! SUPPORT. What each shared operation can do, said once. -/

namespace Sys2Proof.Machine

@[simp] theorem isZero_iff (v : Cell) : isZero v = true ↔ v = 0#8 := by simp [isZero]

/-! The arithmetic of `+` and `-` with CELL_W = 8 (R100, R101). -/

/-- A cell's value is below 256. -/
theorem cell_toNat_lt (v : Cell) : v.toNat < 256 := v.isLt

theorem incByte_eq (v : Cell) : incByte v = v + 1#8 := rfl
theorem decByte_eq (v : Cell) : decByte v = v - 1#8 := rfl

/-- 255 goes to 0. -/
@[simp] theorem incByte_toNat (v : Cell) : (incByte v).toNat = (v.toNat + 1) % 256 := by
  simp [incByte_eq, BitVec.toNat_add, Config.cellW]

/-- 0 goes to 255. -/
@[simp] theorem decByte_toNat (v : Cell) : (decByte v).toNat = (v.toNat + 255) % 256 := by
  simp [decByte_eq, BitVec.toNat_sub, Config.cellW, Nat.add_comm]

@[simp] theorem inAvail_iff (s : State) : inAvail s = true ↔ s.ic < s.input.length := by
  simp [inAvail]

@[simp] theorem withinCap_none (n : Nat) : withinCap none n = true := rfl

@[simp] theorem withinCap_some (c n : Nat) : withinCap (some c) n = true ↔ n ≤ c := by
  simp [withinCap]

theorem memRead_ok {a : Nat} {s : State} (ha : a < Config.tapeLen) :
    memRead a s = .ok (s.cell a) := if_pos ha

theorem memWrite_ok {a : Nat} {s : State} (v : Cell) (ha : a < Config.tapeLen) :
    memWrite a v s = .ok (s.setTape (Memory.write s.tape a v)) := if_pos ha

theorem outAppend_ok {s : State} (v : IoByte)
    (h : withinCap s.caps.out (s.out.length + 1) = true) :
    outAppend v s = .ok (s.setOut (s.out ++ [v])) := if_pos h

theorem withCur_ok {s : State} (k : Cell → Result) (hd : s.dp < Config.tapeLen) :
    withCur s k = k (s.cell s.dp) := by simp [withCur, memRead_ok hd]

/-- Reading the current cell and going on with it: it is inside the tape. -/
theorem withCur_next {s t : State} {k : Cell → Result} (h : withCur s k = .next t) :
    s.dp < Config.tapeLen ∧ k (s.cell s.dp) = .next t := by
  by_cases hd : s.dp < Config.tapeLen
  · exact ⟨hd, by rwa [withCur_ok k hd] at h⟩
  · simp [withCur, memRead, hd] at h

theorem writeCurAdvance_ok {s : State} (v : Cell) (hd : s.dp < Config.tapeLen) :
    writeCurAdvance v s = .next (advance (s.setTape (Memory.write s.tape s.dp v))) := by
  simp [writeCurAdvance, memWrite_ok v hd]

/-- Writing the current cell and advancing: it is inside the tape, and nothing but the tape and IP
changes. -/
theorem writeCurAdvance_next {s t : State} {v : Cell} (h : writeCurAdvance v s = .next t) :
    s.dp < Config.tapeLen ∧ t = advance (s.setTape (Memory.write s.tape s.dp v)) := by
  by_cases hd : s.dp < Config.tapeLen
  · rw [writeCurAdvance_ok v hd] at h
    injection h with h
    exact ⟨hd, h.symm⟩
  · simp [writeCurAdvance, memWrite, hd] at h

theorem modifyCur_ok {s : State} (f : Cell → Cell) (hd : s.dp < Config.tapeLen) :
    modifyCur f s =
      .next (advance (s.setTape (Memory.write s.tape s.dp (f (s.cell s.dp))))) := by
  rw [modifyCur, withCur_ok _ hd, writeCurAdvance_ok _ hd]

theorem raise_next {s t : State} {x : FaultReg} (h : raise x s = .next t) : t = s.setFault x := by
  injection h with h
  exact h.symm

/-- A taken jump: past the match, or MalformedProgram. -/
theorem takeJump_next {s t : State} {target : Option Nat} (h : takeJump target s = .next t) :
    (∃ m, target = some m ∧ t = s.setIp (m + 1)) ∨
    (target = none ∧ t = s.setFault .malformedProgram) := by
  cases target with
  | none => exact .inr ⟨rfl, raise_next h⟩
  | some m =>
    injection h with h
    exact .inl ⟨m, rfl, h.symm⟩

/-- Each of the two sources of the mux, with the condition that selects it. -/
theorem inSelect_cases (s : State) :
    (s.ic < s.input.length ∧ inSelect s = (s.input.getD s.ic 0#8, s.setIc (s.ic + 1))) ∨
    (s.input.length ≤ s.ic ∧ inSelect s = (0#8, s)) := by
  by_cases h : s.ic < s.input.length
  · exact .inl ⟨h, by simp [inSelect, inAvail, h, inTake]⟩
  · exact .inr ⟨by omega, by simp [inSelect, inAvail, h]⟩

@[simp] theorem inSelect_tape (s : State) : (inSelect s).2.tape = s.tape := by
  obtain ⟨-, h⟩ | ⟨-, h⟩ := inSelect_cases s <;> simp [h]

@[simp] theorem inSelect_dp (s : State) : (inSelect s).2.dp = s.dp := by
  obtain ⟨-, h⟩ | ⟨-, h⟩ := inSelect_cases s <;> simp [h]

/-- STATUS with no fault recorded. -/
theorem status_running_iff {s : State} :
    status s = .running ↔ s.fault = .noFault ∧ s.ip < s.prog.length := by
  unfold status
  cases s.fault with
  | noFault => by_cases h : s.ip < s.prog.length <;> simp [h]
  | outOfBounds => simp
  | malformedProgram => simp

theorem status_faulted_iff {s : State} : status s = .faulted ↔ s.fault ≠ .noFault := by
  unfold status
  cases s.fault with
  | noFault => by_cases h : s.ip < s.prog.length <;> simp [h]
  | outOfBounds => simp
  | malformedProgram => simp

end Sys2Proof.Machine
end

