-- ==== Sys2Proof/Laws/PerInstr.lean ====
section
/-! SUPPORT. Statements for all instructions, one lemma per constructor. -/

namespace Sys2Proof.Laws.OneByte

/-- Every instruction is exactly one byte long (spec 30_encoding.md R70). -/
def Statement (i : Instr) : Prop := (encode i).length = 1

theorem right : Statement .right := rfl
theorem left : Statement .left := rfl
theorem inc : Statement .inc := rfl
theorem dec : Statement .dec := rfl
theorem out : Statement .out := rfl
theorem inp : Statement .inp := rfl
theorem jz : Statement .jz := rfl
theorem jnz : Statement .jnz := rfl
theorem nop (b : Byte) : Statement (.nop b) := rfl

end Sys2Proof.Laws.OneByte
end

