-- ==== Sys2Proof/Laws/Scan.lean ====
section
/-! SUPPORT. The scans of the brackets, one equation a pass. -/

namespace Sys2Proof.Machine

@[simp] theorem fwdScan_nil (sp depth : Nat) : fwdScan [] sp depth = none := rfl

theorem fwdScan_cons (b : Byte) (rest : List Byte) (sp depth : Nat) :
    fwdScan (b :: rest) sp depth =
      if fwdDepth b depth = 0 then some sp else fwdScan rest (sp + 1) (fwdDepth b depth) := rfl

@[simp] theorem bwdScan_zero (prog : List Byte) (depth : Nat) : bwdScan prog 0 depth = none := rfl

theorem bwdScan_succ (prog : List Byte) (sp depth : Nat) :
    bwdScan prog (sp + 1) depth =
      match progRead prog sp with
      | none => none
      | some b => if bwdDepth b depth = 0 then some sp else bwdScan prog sp (bwdDepth b depth) := rfl

/-- The three cases of a pass of the forward scan. -/
theorem fwdDepth_cases (b : Byte) (depth : Nat) :
    (b = Opcode.jz ∧ fwdDepth b depth = depth + 1) ∨
    (b = Opcode.jnz ∧ fwdDepth b depth = depth - 1) ∨
    (b ≠ Opcode.jz ∧ b ≠ Opcode.jnz ∧ fwdDepth b depth = depth) := by
  unfold fwdDepth
  by_cases hz : b = Opcode.jz
  · exact .inl ⟨hz, if_pos hz⟩
  · by_cases hn : b = Opcode.jnz
    · exact .inr (.inl ⟨hn, by rw [if_neg hz, if_pos hn]⟩)
    · exact .inr (.inr ⟨hz, hn, by rw [if_neg hz, if_neg hn]⟩)

/-- The three cases of a pass of the backward scan. -/
theorem bwdDepth_cases (b : Byte) (depth : Nat) :
    (b = Opcode.jnz ∧ bwdDepth b depth = depth + 1) ∨
    (b = Opcode.jz ∧ bwdDepth b depth = depth - 1) ∨
    (b ≠ Opcode.jz ∧ b ≠ Opcode.jnz ∧ bwdDepth b depth = depth) := by
  unfold bwdDepth
  by_cases hn : b = Opcode.jnz
  · exact .inl ⟨hn, if_pos hn⟩
  · by_cases hz : b = Opcode.jz
    · exact .inr (.inl ⟨hz, by rw [if_neg hn, if_pos hz]⟩)
    · exact .inr (.inr ⟨hz, hn, by rw [if_neg hn, if_neg hz]⟩)

/-- Where a forward scan can end. -/
theorem fwdScan_range {l : List Byte} {sp depth m : Nat} (h : fwdScan l sp depth = some m) :
    sp ≤ m ∧ m < sp + l.length := by
  induction l generalizing sp depth with
  | nil => simp at h
  | cons b rest ih =>
    rw [fwdScan_cons] at h
    split at h
    · obtain rfl := Option.some.inj h; simp
    · have := ih h
      simp only [List.length_cons]; omega

/-- Where a backward scan can end. -/
theorem bwdScan_range {prog : List Byte} {sp depth m : Nat} (h : bwdScan prog sp depth = some m) :
    m < sp ∧ m < prog.length := by
  induction sp generalizing depth with
  | zero => simp at h
  | succ sp ih =>
    rw [bwdScan_succ] at h
    split at h
    · cases h
    · next b hb =>
      split at h
      · obtain rfl := Option.some.inj h
        exact ⟨by omega, (List.getElem?_eq_some_iff.mp hb).1⟩
      · have := ih h
        omega

end Sys2Proof.Machine
end

