-- ==== Sys2Proof/Laws/Step.lean ====
section
/-! SUPPORT. What a step and each instruction can do, said once: later proofs cite these and unfold
neither `step` nor `exec`. -/

namespace Sys2Proof.Machine

/-- The fetch finds the decoded byte at IP, when a step is enabled. -/
theorem fetch_run {s : State} {b : Byte} (hp : withinCap s.caps.prog s.prog.length = true)
    (hi : withinCap s.caps.input s.input.length = true) (hf : s.fault = .noFault)
    (hb : s.prog[s.ip]? = some b) : fetch s = .run (decodeByte b) := by
  have hlt := (List.getElem?_eq_some_iff.mp hb).1
  have hst : status s = .running := status_running_iff.mpr ⟨hf, hlt⟩
  have hd : fetchBytes s = b :: s.prog.drop (s.ip + 1) := by
    rw [fetchBytes, List.drop_eq_getElem_cons hlt, (List.getElem?_eq_some_iff.mp hb).2]
  simp [fetch, hp, hi, hst, hd, decode]

/-- A step that has a next state ran an instruction: the one at IP, with no fault recorded before
it, in a run within its capacities. -/
theorem step_cases {s t : State} (h : step s = .next t) :
    ∃ b, s.prog[s.ip]? = some b ∧ s.fault = .noFault ∧
      withinCap s.caps.prog s.prog.length = true ∧
      withinCap s.caps.input s.input.length = true ∧ exec (decodeByte b) s = .next t := by
  by_cases hp : withinCap s.caps.prog s.prog.length = true
  · by_cases hi : withinCap s.caps.input s.input.length = true
    · cases hst : status s with
      | halted => simp [step, fetch, hp, hi, hst] at h
      | faulted => simp [step, fetch, hp, hi, hst] at h
      | running =>
        obtain ⟨hf, hlt⟩ := status_running_iff.mp hst
        have hb := List.getElem?_eq_getElem hlt
        refine ⟨_, hb, hf, hp, hi, ?_⟩
        simpa [step, fetch_run hp hi hf hb] using h
    · simp [step, fetch, hp, hi] at h
  · simp [step, fetch, hp] at h

/-- `>` moves DP and advances, or raises OutOfBounds. -/
theorem execRight_cases {s t : State} (h : execRight s = .next t) :
    (s.dp = Config.tapeLen - 1 ∧ t = s.setFault .outOfBounds) ∨
    (s.dp ≠ Config.tapeLen - 1 ∧ t = advance (s.setDp (s.dp + 1))) := by
  unfold execRight at h
  split at h
  · next hd => exact .inl ⟨hd, raise_next h⟩
  · next hd => injection h with h; exact .inr ⟨hd, h.symm⟩

/-- `<` moves DP and advances, or raises OutOfBounds. -/
theorem execLeft_cases {s t : State} (h : execLeft s = .next t) :
    (s.dp = 0 ∧ t = s.setFault .outOfBounds) ∨
    (s.dp ≠ 0 ∧ t = advance (s.setDp (s.dp - 1))) := by
  unfold execLeft at h
  split at h
  · next hd => exact .inl ⟨hd, raise_next h⟩
  · next hd => injection h with h; exact .inr ⟨hd, h.symm⟩

/-- A read-modify-write of the current cell. -/
theorem modifyCur_cases {s t : State} {f : Cell → Cell} (h : modifyCur f s = .next t) :
    s.dp < Config.tapeLen ∧
    t = advance (s.setTape (Memory.write s.tape s.dp (f (s.cell s.dp)))) := by
  obtain ⟨-, h⟩ := withCur_next h
  exact writeCurAdvance_next h

/-- `.` appends the current cell and advances. -/
theorem execOut_cases {s t : State} (h : execOut s = .next t) :
    s.dp < Config.tapeLen ∧ withinCap s.caps.out (s.out.length + 1) = true ∧
    t = advance (s.setOut (s.out ++ [s.cell s.dp])) := by
  obtain ⟨hd, h⟩ := withCur_next h
  by_cases hc : withinCap s.caps.out (s.out.length + 1) = true
  · rw [outAppend_ok _ hc] at h
    injection h with h
    exact ⟨hd, hc, h.symm⟩
  · simp [outAppend, hc] at h

/-- `,` writes the next input byte and moves the cursor, or writes 0 and leaves it. -/
theorem execIn_cases {s t : State} (h : execIn s = .next t) :
    s.dp < Config.tapeLen ∧
    ((s.ic < s.input.length ∧
        t = advance ((s.setIc (s.ic + 1)).setTape
          (Memory.write s.tape s.dp (s.input.getD s.ic 0#8)))) ∨
     (s.input.length ≤ s.ic ∧ t = advance (s.setTape (Memory.write s.tape s.dp 0#8)))) := by
  obtain ⟨hd, h⟩ := writeCurAdvance_next h
  rw [inSelect_dp] at hd
  refine ⟨hd, ?_⟩
  obtain ⟨hic, hs⟩ | ⟨hic, hs⟩ := inSelect_cases s
  · exact .inl ⟨hic, by rw [h, hs]; rfl⟩
  · exact .inr ⟨hic, by rw [h, hs]⟩

/-- `[` falls through, jumps past the match, or raises MalformedProgram. -/
theorem execJz_cases {s t : State} (h : execJz s = .next t) :
    s.dp < Config.tapeLen ∧
    ((s.cell s.dp ≠ 0#8 ∧ t = advance s) ∨
     (s.cell s.dp = 0#8 ∧ ∃ m, fwdMatch s.prog s.ip = some m ∧ t = s.setIp (m + 1)) ∨
     (s.cell s.dp = 0#8 ∧ fwdMatch s.prog s.ip = none ∧ t = s.setFault .malformedProgram)) := by
  obtain ⟨hd, h⟩ := withCur_next h
  refine ⟨hd, ?_⟩
  split at h
  · next hz =>
    rw [isZero_iff] at hz
    obtain ⟨m, hm, ht⟩ | ⟨hm, ht⟩ := takeJump_next h
    · exact .inr (.inl ⟨hz, m, hm, ht⟩)
    · exact .inr (.inr ⟨hz, hm, ht⟩)
  · next hz =>
    rw [isZero_iff] at hz
    injection h with h
    exact .inl ⟨hz, h.symm⟩

/-- `]` falls through, jumps past the match, or raises MalformedProgram. -/
theorem execJnz_cases {s t : State} (h : execJnz s = .next t) :
    s.dp < Config.tapeLen ∧
    ((s.cell s.dp = 0#8 ∧ t = advance s) ∨
     (s.cell s.dp ≠ 0#8 ∧ ∃ m, bwdMatch s.prog s.ip = some m ∧ t = s.setIp (m + 1)) ∨
     (s.cell s.dp ≠ 0#8 ∧ bwdMatch s.prog s.ip = none ∧ t = s.setFault .malformedProgram)) := by
  obtain ⟨hd, h⟩ := withCur_next h
  refine ⟨hd, ?_⟩
  split at h
  · next hz =>
    rw [isZero_iff] at hz
    injection h with h
    exact .inl ⟨hz, h.symm⟩
  · next hz =>
    rw [isZero_iff] at hz
    obtain ⟨m, hm, ht⟩ | ⟨hm, ht⟩ := takeJump_next h
    · exact .inr (.inl ⟨hz, m, hm, ht⟩)
    · exact .inr (.inr ⟨hz, hm, ht⟩)

theorem execNop_cases {s t : State} (h : execNop s = .next t) : t = advance s := by
  injection h with h
  exact h.symm

/-- Everything an executed program byte can do to a state, one case per outcome of each instruction. -/
inductive Effect (s : State) (b : Byte) : State → Prop where
  | rightRaises (hb : b = Opcode.right) (hd : s.dp = Config.tapeLen - 1) :
      Effect s b (s.setFault .outOfBounds)
  | rightMoves (hb : b = Opcode.right) (hd : s.dp ≠ Config.tapeLen - 1) :
      Effect s b (advance (s.setDp (s.dp + 1)))
  | leftRaises (hb : b = Opcode.left) (hd : s.dp = 0) : Effect s b (s.setFault .outOfBounds)
  | leftMoves (hb : b = Opcode.left) (hd : s.dp ≠ 0) : Effect s b (advance (s.setDp (s.dp - 1)))
  | inc (hb : b = Opcode.inc) (hd : s.dp < Config.tapeLen) :
      Effect s b (advance (s.setTape (Memory.write s.tape s.dp (incByte (s.cell s.dp)))))
  | dec (hb : b = Opcode.dec) (hd : s.dp < Config.tapeLen) :
      Effect s b (advance (s.setTape (Memory.write s.tape s.dp (decByte (s.cell s.dp)))))
  | out (hb : b = Opcode.out) (hd : s.dp < Config.tapeLen)
      (hc : withinCap s.caps.out (s.out.length + 1) = true) :
      Effect s b (advance (s.setOut (s.out ++ [s.cell s.dp])))
  | inTakes (hb : b = Opcode.inp) (hd : s.dp < Config.tapeLen) (hi : s.ic < s.input.length) :
      Effect s b (advance ((s.setIc (s.ic + 1)).setTape
        (Memory.write s.tape s.dp (s.input.getD s.ic 0#8))))
  | inEnds (hb : b = Opcode.inp) (hd : s.dp < Config.tapeLen) (hi : s.input.length ≤ s.ic) :
      Effect s b (advance (s.setTape (Memory.write s.tape s.dp 0#8)))
  | jzFalls (hb : b = Opcode.jz) (hd : s.dp < Config.tapeLen) (hz : s.cell s.dp ≠ 0#8) :
      Effect s b (advance s)
  | jzJumps (hb : b = Opcode.jz) (hd : s.dp < Config.tapeLen) (hz : s.cell s.dp = 0#8) (m : Nat)
      (hm : fwdMatch s.prog s.ip = some m) : Effect s b (s.setIp (m + 1))
  | jzRaises (hb : b = Opcode.jz) (hd : s.dp < Config.tapeLen) (hz : s.cell s.dp = 0#8)
      (hm : fwdMatch s.prog s.ip = none) : Effect s b (s.setFault .malformedProgram)
  | jnzFalls (hb : b = Opcode.jnz) (hd : s.dp < Config.tapeLen) (hz : s.cell s.dp = 0#8) :
      Effect s b (advance s)
  | jnzJumps (hb : b = Opcode.jnz) (hd : s.dp < Config.tapeLen) (hz : s.cell s.dp ≠ 0#8) (m : Nat)
      (hm : bwdMatch s.prog s.ip = some m) : Effect s b (s.setIp (m + 1))
  | jnzRaises (hb : b = Opcode.jnz) (hd : s.dp < Config.tapeLen) (hz : s.cell s.dp ≠ 0#8)
      (hm : bwdMatch s.prog s.ip = none) : Effect s b (s.setFault .malformedProgram)
  | nop (hb : b ∉ nopExcludes) : Effect s b (advance s)

/-- The inversion of `exec` on a decoded byte: proofs take its cases and unfold no meaning. -/
theorem exec_effect {s t : State} {b : Byte} (h : exec (decodeByte b) s = .next t) :
    Effect s b t := by
  rcases decodeByte_cases b with ⟨hb, hi⟩ | ⟨hb, hi⟩ | ⟨hb, hi⟩ | ⟨hb, hi⟩ | ⟨hb, hi⟩ | ⟨hb, hi⟩ |
    ⟨hb, hi⟩ | ⟨hb, hi⟩ | ⟨hb, hi⟩ <;> rw [hi] at h
  · obtain ⟨hd, rfl⟩ | ⟨hd, rfl⟩ := execRight_cases h
    · exact .rightRaises hb hd
    · exact .rightMoves hb hd
  · obtain ⟨hd, rfl⟩ | ⟨hd, rfl⟩ := execLeft_cases h
    · exact .leftRaises hb hd
    · exact .leftMoves hb hd
  · obtain ⟨hd, rfl⟩ := modifyCur_cases (f := incByte) h
    exact .inc hb hd
  · obtain ⟨hd, rfl⟩ := modifyCur_cases (f := decByte) h
    exact .dec hb hd
  · obtain ⟨hd, hc, rfl⟩ := execOut_cases h
    exact .out hb hd hc
  · obtain ⟨hd, ⟨hi, rfl⟩ | ⟨hi, rfl⟩⟩ := execIn_cases h
    · exact .inTakes hb hd hi
    · exact .inEnds hb hd hi
  · obtain ⟨hd, ⟨hz, rfl⟩ | ⟨hz, m, hm, rfl⟩ | ⟨hz, hm, rfl⟩⟩ := execJz_cases h
    · exact .jzFalls hb hd hz
    · exact .jzJumps hb hd hz m hm
    · exact .jzRaises hb hd hz hm
  · obtain ⟨hd, ⟨hz, rfl⟩ | ⟨hz, m, hm, rfl⟩ | ⟨hz, hm, rfl⟩⟩ := execJnz_cases h
    · exact .jnzFalls hb hd hz
    · exact .jnzJumps hb hd hz m hm
    · exact .jnzRaises hb hd hz hm
  · obtain rfl := execNop_cases h
    exact .nop hb

/-- The inversion of `step`: the effect of the byte at IP, with no fault recorded before. -/
theorem step_effect {s t : State} (h : step s = .next t) :
    ∃ b, s.prog[s.ip]? = some b ∧ s.fault = .noFault ∧ Effect s b t := by
  obtain ⟨b, hb, hf, -, -, he⟩ := step_cases h
  exact ⟨b, hb, hf, exec_effect he⟩

end Sys2Proof.Machine
end

