-- ==== Sys2Proof/Tests/Slice0.lean ====
section
/-! SUPPORT. The model's own tests. Expected results come from spec/95_test_vectors.md (vector ids in
the comments) and from the encodings of 30_encoding.md R72, never from the model. Then, for every
statement with hypotheses, a witness: concrete states and operands that meet them, at the boundary of
each clause. -/

namespace Sys2Proof.Tests

open Sys2Proof Sys2Proof.Machine

/-- A small running state with the default capacities. -/
def st (prog : List Byte) (ip : Nat) (tape : Memory := []) (dp : Nat := 0) (input : List IoByte := [])
    (ic : Nat := 0) (out : List IoByte := []) : State :=
  { prog := prog, input := input, caps := Config.Caps.unbounded, tape := tape, dp := dp, ip := ip,
    ic := ic, out := out, fault := .noFault }

/-- A view of the next state, when there is one. -/
def after {α : Type} (r : Result) (view : State → α) : Option α :=
  match r with
  | .next t => some (view t)
  | .fault _ => none
  | .refused _ => none

/-! Well-formedness: each ill-formed NOP is refused. -/

theorem test_wf_nop_refuses_instruction_bytes :
    (Instr.nop 0x2B#8).wf = false ∧ (Instr.nop 0x2C#8).wf = false ∧ (Instr.nop 0x2D#8).wf = false ∧
    (Instr.nop 0x2E#8).wf = false ∧ (Instr.nop 0x3C#8).wf = false ∧ (Instr.nop 0x3E#8).wf = false ∧
    (Instr.nop 0x5B#8).wf = false ∧ (Instr.nop 0x5D#8).wf = false := by decide

theorem test_wf_accepts_nop_neighbours :
    (Instr.nop 0x3D#8).wf = true ∧ (Instr.nop 0x5C#8).wf = true ∧ (Instr.nop 0x2A#8).wf = true := by
  decide

/-! Decoding: the words of R72, bit by bit. -/

theorem test_decode_right : decode [0b00111110#8] = .ok (.right, []) := by rfl
theorem test_decode_left : decode [0b00111100#8] = .ok (.left, []) := by rfl
theorem test_decode_inc : decode [0b00101011#8] = .ok (.inc, []) := by rfl
theorem test_decode_dec : decode [0b00101101#8] = .ok (.dec, []) := by rfl
theorem test_decode_out : decode [0b00101110#8] = .ok (.out, []) := by rfl
theorem test_decode_inp : decode [0b00101100#8] = .ok (.inp, []) := by rfl
theorem test_decode_jz : decode [0b01011011#8] = .ok (.jz, []) := by rfl
theorem test_decode_jnz : decode [0b01011101#8] = .ok (.jnz, []) := by rfl
/-- N2: the neighbours of the instruction bytes, and the extremes, are NOPs. -/
theorem test_decode_nop :
    [0x00#8, 0xFF#8, 0x20#8, 0x0A#8, 0x3D#8, 0x3F#8, 0x5C#8, 0x2A#8, 0x2F#8].map decodeByte =
    [.nop 0x00#8, .nop 0xFF#8, .nop 0x20#8, .nop 0x0A#8, .nop 0x3D#8, .nop 0x3F#8, .nop 0x5C#8,
     .nop 0x2A#8, .nop 0x2F#8] := by decide
theorem test_decode_rejects_no_byte : decode [] = .error .noByte := by rfl
/-- Two rows of the opcode table never accept one byte. -/
theorem test_opcode_rows_disjoint :
    opcodeRows.Pairwise (fun r r' => r.pattern &&& r'.mask ≠ r'.pattern) := by decide

/-! One step of each instruction. -/

/-- P1 -/
theorem test_right : after (step (st [0x3E#8, 0x3E#8, 0x3E#8, 0x3E#8, 0x3E#8] 4))
    (fun t => (t.dp, t.ip, t.fault)) = some (1, 5, .noFault) := by decide
/-- P5 -/
theorem test_right_at_last_cell : after (step (st [0x3E#8] 0 (dp := 29999)))
    (fun t => (t.dp, t.ip, t.fault)) = some (29999, 0, .outOfBounds) := by decide
/-- P4 -/
theorem test_left : after (step (st [0x3C#8] 0 (dp := 29999)))
    (fun t => (t.dp, t.ip, t.fault)) = some (29998, 1, .noFault) := by decide
/-- P6, P7 -/
theorem test_left_at_first_cell : after (step (st [0x3C#8, 0x3E#8] 0))
    (fun t => (t.dp, t.ip, t.fault)) = some (0, 0, .outOfBounds) := by decide
/-- A9: the wrap leaves the neighbours alone. -/
theorem test_inc_wraps : after (step (st [0x2B#8] 0 (tape := [(6, 9#8), (7, 255#8), (8, 3#8)]) (dp := 7)))
    (fun t => (t.cell 6, t.cell 7, t.cell 8, t.tape)) = some (9#8, 0#8, 3#8, [(6, 9#8), (8, 3#8)]) := by
  decide
/-- A2 -/
theorem test_inc_unsigned : after (step (st [0x2B#8] 0 (tape := [(0, 127#8)])))
    (fun t => (t.cell 0, t.ip)) = some (128#8, 1) := by decide
/-- A5 -/
theorem test_dec_wraps : after (step (st [0x2D#8] 0))
    (fun t => (t.cell 0, t.ip)) = some (255#8, 1) := by decide
/-- A10 -/
theorem test_dec_last_cell : after (step (st [0x2D#8] 0 (tape := [(29999, 5#8)]) (dp := 29999)))
    (fun t => (t.tape, t.dp)) = some ([(29999, 4#8)], 29999) := by decide
/-- I2 -/
theorem test_out_zero_byte : after (step (st [0x2E#8] 0 (out := [65#8])))
    (fun t => (t.out, t.ip)) = some ([65#8, 0#8], 1) := by decide
/-- I3 -/
theorem test_out_raw : after (step (st [0x2E#8] 0 (tape := [(0, 200#8)])))
    (fun t => (t.out, t.cell 0)) = some ([200#8], 200#8) := by decide
/-- I6 -/
theorem test_inp_takes : after (step (st [0x2C#8] 0 (tape := [(0, 7#8)]) (input := [72#8, 105#8]) (ic := 1)))
    (fun t => (t.cell 0, t.ic, t.ip)) = some (105#8, 2, 1) := by decide
/-- I7 -/
theorem test_inp_at_end : after (step (st [0x2C#8] 0 (tape := [(0, 105#8)]) (input := [72#8, 105#8]) (ic := 2)))
    (fun t => (t.tape, t.ic, t.ip)) = some ([], 2, 1) := by decide
/-- J8: the scan passes over the other instructions and a NOP. -/
theorem test_jz_jumps : after (step (st [0x5B#8, 0x3E#8, 0x2E#8, 0x3C#8, 0x2C#8, 0x78#8, 0x5D#8, 0x2B#8] 0))
    (fun t => (t.ip, t.fault)) = some (7, .noFault) := by decide
/-- J14 -/
theorem test_jz_without_match : after (step (st [0x5B#8, 0x5B#8, 0x5D#8] 0))
    (fun t => (t.ip, t.fault)) = some (0, .malformedProgram) := by decide
/-- S6, step 7: the innermost `[`. -/
theorem test_jnz_jumps : after (step (st [0x2B#8, 0x2B#8, 0x2B#8, 0x5B#8, 0x5B#8, 0x2D#8, 0x5D#8, 0x5D#8] 6
    (tape := [(0, 2#8)]))) (fun t => (t.ip, t.fault)) = some (5, .noFault) := by decide
/-- J10, step 2 -/
theorem test_jnz_without_match : after (step (st [0x2B#8, 0x5D#8] 1 (tape := [(0, 1#8)])))
    (fun t => (t.ip, t.fault, t.tape)) = some (1, .malformedProgram, [(0, 1#8)]) := by decide
/-- J11, step 2: an unmatched `[` that is not taken does not fault. -/
theorem test_jz_falls_through : after (step (st [0x2B#8, 0x5B#8] 1 (tape := [(0, 1#8)])))
    (fun t => (t.ip, status t)) = some (2, .halted) := by decide
/-- J12: an unmatched `]` that is not taken does not fault. -/
theorem test_jnz_falls_through : after (step (st [0x5D#8] 0))
    (fun t => (t.ip, status t)) = some (1, .halted) := by decide
/-- S1 -/
theorem test_nop : after (step (st [0x61#8, 0x62#8] 0 (input := [120#8])))
    (fun t => (t.ip, t.ic, t.out.length, t.tape.length)) = some (1, 0, 0, 0) := by decide
/-- J5 -/
theorem test_scan_pairs :
    fwdMatch [0x5B#8, 0x5B#8, 0x2D#8, 0x5D#8, 0x5D#8] 0 = some 4 ∧
    fwdMatch [0x5B#8, 0x5B#8, 0x2D#8, 0x5D#8, 0x5D#8] 1 = some 3 ∧
    bwdMatch [0x5B#8, 0x5B#8, 0x2D#8, 0x5D#8, 0x5D#8] 3 = some 1 ∧
    bwdMatch [0x5B#8, 0x5B#8, 0x2D#8, 0x5D#8, 0x5D#8] 4 = some 0 := by decide

/-! Reset, the end of a run, the host. -/

/-- N3: with an empty program the run has ended at reset. -/
theorem test_reset_is_halted : status State.reset = .halted ∧ step State.reset = .fault .runHalted :=
  ⟨rfl, rfl⟩
/-- G4: after the fault OUT is readable and no step is enabled. -/
theorem test_fault_keeps_output : after (step (st [0x2B#8, 0x2E#8, 0x3C#8] 2 (tape := [(0, 1#8)]) (out := [1#8])))
    (fun t => (hostStatus t, hostFault t, hostOut t, t.ip)) = some (.faulted, 1#2, some [1#8], 2) := by
  decide
/-- X1: reset after a fault keeps nothing. -/
theorem test_reset_after_fault :
    hostReset [0x2E#8] [] { st [0x3C#8] 0 (tape := [(0, 1#8)]) (out := [1#8]) with fault := .outOfBounds } =
    State.start [0x2E#8] [] Config.Caps.unbounded := by decide
/-- R9: a run over a finite PROG_CAP is refused. -/
theorem test_over_prog_cap :
    step { st [0x2B#8, 0x2B#8] 0 with caps := ⟨some 1, none, none⟩ } = .refused .programTooLong := rfl
/-- The word of a table row, placed by `withFetchWord`, runs first after reset. -/
theorem test_fetch_word_runs : after (step (State.reset.withFetchWord 8 0x2B))
    (fun t => (t.tape, t.ip)) = some ([(0, 1#8)], 1) := by decide
theorem test_decode_table_word : decodeTableWord 8 0x5D = some .jnz ∧ decodeTableWord 8 0 = some (.nop 0#8) := by
  decide

/-- Of a run R9 gives no meaning the host reads what it reads of any state (log entry 16). -/
theorem test_host_reads_of_unmeant_run :
    hostStatus (State.start [] [1#8] ⟨none, some 0, none⟩) = .halted ∧
    hostOut (State.start [] [1#8] ⟨none, some 0, none⟩) = some [] := by decide

/-! Witnesses: the hypotheses of each statement are met, at the boundary of each clause. -/

theorem witness_HostResetForgetsEarlierRun :
    State.reset.caps = (st [0x3C#8] 0 (tape := [(0, 1#8)]) (out := [1#8])).caps := by decide

theorem witness_HostReadsOutputOnlyAfterRunEnds :
    hostStatus (st [0x2B#8] 0) = .running ∧ hostStatus (st [0x2B#8] 1) ≠ .running ∧
    hostStatus { st [0x3C#8] 0 with fault := .outOfBounds } ≠ .running := by decide

theorem witness_StatusFollowsFaultAndIp :
    (st [0x2B#8] 0).ip ≤ (st [0x2B#8] 0).prog.length ∧ hostStatus (st [0x2B#8] 0) = .running ∧
    (st [0x2B#8] 1).ip ≤ (st [0x2B#8] 1).prog.length ∧ hostStatus (st [0x2B#8] 1) = .halted := by decide

theorem witness_DecodeClassifiesEveryByte :
    0x2A#8 ∉ [0x2B#8, 0x2C#8, 0x2D#8, 0x2E#8, 0x3C#8, 0x3E#8, 0x5B#8, 0x5D#8] := by decide

theorem witness_DecodeOfEncodeIsIdentity :
    Instr.right.wf = true ∧ Instr.left.wf = true ∧ Instr.inc.wf = true ∧ Instr.dec.wf = true ∧
    Instr.out.wf = true ∧ Instr.inp.wf = true ∧ Instr.jz.wf = true ∧ Instr.jnz.wf = true ∧
    (Instr.nop 0x00#8).wf = true ∧ (Instr.nop 0xFF#8).wf = true := by decide

theorem witness_EncodeOfDecodeIsIdentity : [0x2B#8, 0x2B#8] ≠ ([] : List Byte) := by decide

theorem witness_TableWordRunsAtIp :
    0 < 256 ∧ 255 < 256 ∧ 0 ≠ (st [0x3E#8, 0x3E#8] 1).ip ∧ 0 < (st [0x3E#8, 0x3E#8] 1).prog.length := by
  decide

theorem witness_StepRunsDecodedInstruction :
    (st [0x2B#8] 0).WithinCaps ∧ (st [0x2B#8] 0).fault = .noFault ∧
    (st [0x2B#8] 0).prog[(st [0x2B#8] 0).ip]? = some 0x2B#8 := by decide

theorem witness_StopsExactlyWhenRunHasEnded :
    ((st [0x2B#8] 1).Inv ∧ (st [0x2B#8] 1).WithinCaps ∧ hostStatus (st [0x2B#8] 1) = .halted) ∧
    (State.Inv { st [0x3C#8] 0 with fault := .outOfBounds } ∧
      State.WithinCaps { st [0x3C#8] 0 with fault := .outOfBounds } ∧
      hostStatus { st [0x3C#8] 0 with fault := .outOfBounds } = .faulted) := by decide

theorem witness_RunningStepCompletes :
    ((st [0x2E#8] 0 (dp := 29999)).Inv ∧ (st [0x2E#8] 0 (dp := 29999)).WithinCaps ∧
      hostStatus (st [0x2E#8] 0 (dp := 29999)) = .running ∧ (st [0x2E#8] 0 (dp := 29999)).OutRoom) ∧
    (State.Inv { st [0x2B#8] 0 with caps := ⟨none, none, some 0⟩ } ∧
      hostStatus { st [0x2B#8] 0 with caps := ⟨none, none, some 0⟩ } = .running ∧
      (st [0x2B#8] 0).prog[(st [0x2B#8] 0).ip]? ≠ some 0x2E#8) := by decide

/-- A run of one `+` and one input byte, at its PROG_CAP and one over its INPUT_CAP. -/
def overInput : State := { st [0x2B#8] 0 (input := [1#8]) with caps := ⟨some 1, some 0, none⟩ }

/-- Each clause at its boundary: PROG_CAP exceeded by one, INPUT_CAP exceeded by one with a PROG at its
own finite capacity, a `.` on an OUT at OUT_CAP, three finite capacities and no refusal, the default. -/
theorem witness_OnlyOverCapacityRunsAreRefused :
    step { st [0x2B#8, 0x2B#8] 0 with caps := ⟨some 1, none, none⟩ } = .refused .programTooLong ∧
    ((∀ p, overInput.caps.prog = some p → overInput.prog.length ≤ p) ∧
      overInput.caps.input = some 0 ∧ 0 < overInput.input.length ∧
      step overInput = .refused .inputTooLong) ∧
    step { st [0x2E#8] 0 (out := [7#8]) with caps := ⟨some 1, some 0, some 1⟩ } =
      .refused .outputFull ∧
    (∃ t, step { st [0x2B#8] 0 (input := [1#8]) with caps := ⟨some 1, some 1, some 0⟩ } = .next t) ∧
    (st [0x2B#8] 0).caps = Config.Caps.unbounded :=
  ⟨rfl, ⟨fun p h => by cases h; decide, rfl, by decide, rfl⟩, rfl, ⟨_, rfl⟩, rfl⟩

theorem witness_RightMovesPointerUp :
    (st [0x3E#8] 0 (dp := 0)).dp ≠ 29999 ∧ (st [0x3E#8] 0 (dp := 29998)).dp ≠ 29999 := by decide

theorem witness_LeftMovesPointerDown :
    (st [0x3C#8] 0 (dp := 1)).dp ≠ 0 ∧ (st [0x3C#8] 0 (dp := 29999)).dp ≠ 0 := by decide

theorem witness_MovesOffTapeRaiseOutOfBounds :
    (Instr.right = .right ∧ (st [0x3E#8] 0 (dp := 29999)).dp = 29999) ∧
    (Instr.left = .left ∧ (st [0x3C#8] 0).dp = 0) := by decide

/-- For `+`, `-` and `,`: at the first cell and at the last, with a cell listed. -/
theorem witness_tape_writers :
    ((st [0x2B#8] 0).dp < 30000 ∧ (st [0x2B#8] 0).tape.wf = true) ∧
    ((st [0x2B#8] 0 (tape := [(29999, 255#8)]) (dp := 29999)).dp < 30000 ∧
      (st [0x2B#8] 0 (tape := [(29999, 255#8)]) (dp := 29999)).tape.wf = true) := by decide

theorem witness_InReadsNextByteOrZero :
    ((st [0x2C#8] 0 (input := [1#8])).dp < 30000 ∧ (st [0x2C#8] 0 (input := [1#8])).tape.wf = true ∧
      (st [0x2C#8] 0 (input := [1#8])).ic < (st [0x2C#8] 0 (input := [1#8])).input.length) ∧
    (st [0x2C#8] 0 (input := [1#8]) (ic := 1)).input.length ≤
      (st [0x2C#8] 0 (input := [1#8]) (ic := 1)).ic := by decide

theorem witness_IncAndDecUndoEachOther :
    (st [0x2B#8] 0 (tape := [(0, 255#8)])).tape.wf = true ∧
    (∃ t u, exec .inc (st [0x2B#8] 0 (tape := [(0, 255#8)])) = .next t ∧ exec .dec t = .next u) ∧
    (∃ t u, exec .dec (st [0x2D#8] 0) = .next t ∧ exec .inc t = .next u) :=
  ⟨by decide, ⟨_, _, rfl, rfl⟩, ⟨_, _, rfl, rfl⟩⟩

theorem witness_OutAppendsCurrentCell :
    (st [0x2E#8] 0 (dp := 29999)).dp < 30000 ∧ (st [0x2E#8] 0 (dp := 29999)).OutRoom ∧
    State.OutRoom { st [0x2E#8] 0 with caps := ⟨none, none, some 1⟩ } := by decide

theorem witness_OutRefusedWhenOutputFull :
    (st [0x2E#8] 0).dp < 30000 ∧
    (State.caps { st [0x2E#8] 0 (out := [7#8]) with caps := ⟨none, none, some 1⟩ }).out = some 1 ∧
    (st [0x2E#8] 0 (out := [7#8])).out.length = 1 := by decide

theorem witness_JzFallsThroughOrJumpsForward :
    (st [0x5B#8] 0 (tape := [(0, 128#8)])).dp < 30000 ∧
    (st [0x5B#8] 0 (tape := [(0, 128#8)])).cell 0 ≠ 0#8 ∧
    (st [0x5B#8, 0x5D#8] 0).dp < 30000 ∧ (st [0x5B#8, 0x5D#8] 0).cell 0 = 0#8 ∧
    fwdMatch [0x5B#8, 0x5D#8] 0 = some 1 := by decide

theorem witness_JnzFallsThroughOrJumpsBack :
    (st [0x5D#8] 0).dp < 30000 ∧ (st [0x5D#8] 0).cell 0 = 0#8 ∧
    (st [0x5B#8, 0x5D#8] 1 (tape := [(0, 255#8)])).cell 0 ≠ 0#8 ∧
    bwdMatch [0x5B#8, 0x5D#8] 1 = some 0 := by decide

theorem witness_TakenBracketWithoutMatchRaises :
    ((st [0x5B#8] 0).dp < 30000 ∧ (st [0x5B#8] 0).cell 0 = 0#8 ∧ fwdMatch [0x5B#8] 0 = none) ∧
    ((st [0x5D#8] 0 (tape := [(0, 1#8)])).dp < 30000 ∧
      (st [0x5D#8] 0 (tape := [(0, 1#8)])).cell 0 ≠ 0#8 ∧ bwdMatch [0x5D#8] 0 = none) := by decide

/-- The four cases of a bracket that jumps or falls through, and one that fails. -/
theorem witness_BracketsTestCurrentCellForZero :
    (∃ t, exec .jz (st [0x5B#8] 0 (tape := [(0, 1#8)])) = .next t) ∧
    (∃ t, exec .jz (st [0x5B#8, 0x5D#8] 0) = .next t) ∧ (∃ t, exec .jz (st [0x5B#8] 0) = .next t) ∧
    (∃ t, exec .jnz (st [0x5D#8] 0) = .next t) ∧
    (∃ t, exec .jnz (st [0x5B#8, 0x5D#8] 1 (tape := [(0, 255#8)])) = .next t) ∧
    (st [0x5B#8] 0 (tape := [(0, 1#8)])).cell 0 = 1#8 ∧ (st [0x5B#8] 0).cell 0 = 0#8 :=
  ⟨⟨_, rfl⟩, ⟨_, rfl⟩, ⟨_, rfl⟩, ⟨_, rfl⟩, ⟨_, rfl⟩, by decide, by decide⟩

theorem witness_FwdMatchIsLeastBalancingClose :
    0 < 3 ∧ 3 < [0x5B#8, 0x5B#8, 0x5D#8, 0x5D#8].length ∧
    fwdMatch [0x5B#8, 0x5B#8, 0x5D#8, 0x5D#8] 0 = some 3 ∧
    excess (progPiece [0x5B#8, 0x5B#8, 0x5D#8, 0x5D#8] 1 3) = 1 ∧ fwdMatch [0x5B#8] 0 = none := by decide

theorem witness_BwdMatchIsGreatestBalancingOpen :
    3 < [0x5B#8, 0x5B#8, 0x5D#8, 0x5D#8].length ∧
    bwdMatch [0x5B#8, 0x5B#8, 0x5D#8, 0x5D#8] 3 = some 0 ∧
    excess (progPiece [0x5B#8, 0x5B#8, 0x5D#8, 0x5D#8] 0 2) = -1 ∧ bwdMatch [0x5D#8] 0 = none := by decide

theorem witness_JumpTargetsAreInRange :
    fwdMatch [0x5B#8, 0x5D#8] 0 = some 1 ∧ bwdMatch [0x5B#8, 0x5D#8] 1 = some 0 := by decide

/-- Both scans while they go on, at the last pass before the end, and when they have found. -/
theorem witness_ScanDepthStaysWithinProgramLength :
    0 < [0x5B#8, 0x5B#8].length ∧ 0 + 1 < [0x5B#8, 0x5B#8].length ∧
    fwdMatch [0x5B#8, 0x5B#8] 0 = none ∧ fwdDepthAfter [0x5B#8, 0x5B#8] 0 1 = 2 ∧
    bwdMatch [0x5D#8, 0x5D#8] 1 = none ∧ bwdDepthAfter [0x5D#8, 0x5D#8] 1 1 = 2 ∧
    fwdMatch [0x5B#8, 0x5D#8] 0 = some 1 ∧ bwdMatch [0x5B#8, 0x5D#8] 1 = some 0 := by decide

theorem witness_BalancedProgramsMatchEveryBracket :
    BracketsBalanced [0x5B#8, 0x5D#8] ∧ [0x5B#8, 0x5D#8][0]? = some 0x5B#8 ∧
    [0x5B#8, 0x5D#8][1]? = some 0x5D#8 := by
  refine ⟨⟨by decide, fun k => ?_⟩, by decide, by decide⟩
  match k with
  | 0 => decide
  | 1 => decide
  | n + 2 => rw [List.take_of_length_le (by simp)]; decide

theorem witness_ScansPassOverNonBracketBytes :
    [0x5B#8, 0x2B#8, 0x5D#8][1]? = some 0x2B#8 ∧ NonBracket 0x2B#8 ∧ NonBracket 0x61#8 := by decide

theorem witness_JumpOutcomeDependsOnlyOnProgramAndIp :
    ((st [0x5B#8, 0x5D#8] 0).cell 0 = 0#8 ∧
      (st [0x5B#8, 0x5D#8] 0 (tape := [(0, 9#8)]) (dp := 29999)).cell 29999 = 0#8 ∧
      (∃ t t', exec .jz (st [0x5B#8, 0x5D#8] 0) = .next t ∧
        exec .jz (st [0x5B#8, 0x5D#8] 0 (tape := [(0, 9#8)]) (dp := 29999)) = .next t')) ∧
    (st [0x5B#8, 0x5D#8] 1 (tape := [(0, 9#8)])).cell 0 ≠ 0#8 ∧
    (∃ t t', exec .jnz (st [0x5B#8, 0x5D#8] 1 (tape := [(0, 9#8)])) = .next t ∧
      exec .jnz (st [0x5B#8, 0x5D#8] 1 (tape := [(0, 1#8)])) = .next t') :=
  ⟨⟨by decide, by decide, _, _, rfl, rfl⟩, by decide, _, _, rfl, rfl⟩

/-- A step that faults in each of the four ways, and one that does not: for every statement about
`step s = .next t`, that of the capacities among them. -/
theorem witness_steps :
    after (step (st [0x3E#8] 0 (dp := 29999))) (fun t => t.fault) = some .outOfBounds ∧
    after (step (st [0x3C#8] 0)) (fun t => t.fault) = some .outOfBounds ∧
    after (step (st [0x5B#8] 0)) (fun t => t.fault) = some .malformedProgram ∧
    after (step (st [0x5D#8] 0 (tape := [(0, 1#8)]))) (fun t => t.fault) = some .malformedProgram ∧
    after (step (st [0x2B#8] 0)) (fun t => t.fault) = some .noFault := by decide

theorem witness_FaultIsFinalUntilReset :
    (State.fault { st [0x3C#8] 0 with fault := .outOfBounds }) ≠ .noFault := by decide

/-- A `.` with room before and after OUT is exchanged, and a `+` on a full OUT at a finite OUT_CAP. -/
theorem witness_OutputIsAppendOnlyAndNeverRead :
    ((st [0x2E#8] 0).setOut [1#8]).OutRoom ∧
    (∃ t, exec .out (st [0x2E#8] 0) = .next t ∧ Trace (st [0x2E#8] 0) [⟨.out, 0⟩] t) ∧
    ¬ State.OutRoom { st [0x2B#8] 0 (out := [7#8]) with caps := ⟨none, none, some 1⟩ } ∧
    Instr.inc ≠ .out ∧
    ∃ t, exec .inc { st [0x2B#8] 0 (out := [7#8]) with caps := ⟨none, none, some 1⟩ } = .next t :=
  ⟨by decide, ⟨_, rfl, .cons (by decide) rfl (.nil _)⟩, by decide, by decide, _, rfl⟩

theorem witness_CursorOnlyMovesForwardWithinInput :
    (st [0x2C#8] 0 (input := [1#8]) (ic := 1)).ic ≤ (st [0x2C#8] 0 (input := [1#8]) (ic := 1)).input.length ∧
    ∃ t, step (st [0x2C#8] 0 (input := [1#8]) (ic := 1)) = .next t := ⟨by decide, _, rfl⟩

theorem witness_UnreadInputHasNoEffect :
    Instr.out ≠ .inp ∧ ∃ t, exec .out (st [0x2E#8] 0 (input := [1#8])) = .next t := ⟨by decide, _, rfl⟩

theorem witness_OnlyTheCurrentCellIsRead :
    (st [0x2B#8] 0 (tape := [(0, 5#8), (1, 6#8)])).tape.wf = true ∧ Memory.wf [(0, 5#8), (2, 7#8)] = true ∧
    ((st [0x2B#8] 0 (tape := [(0, 5#8), (1, 6#8)])).setTape [(0, 5#8), (2, 7#8)]).cell 0 =
      (st [0x2B#8] 0 (tape := [(0, 5#8), (1, 6#8)])).cell 0 ∧
    ∃ t, exec .inc (st [0x2B#8] 0 (tape := [(0, 5#8), (1, 6#8)])) = .next t :=
  ⟨by decide, by decide, by decide, _, rfl⟩

/-- A run of one `>` without a fault. -/
theorem witness_PointerMovesByRightsLessLefts :
    ∃ t, Trace (st [0x3E#8] 0) [⟨.right, 0⟩] t ∧ t.fault = .noFault :=
  ⟨_, .cons (by decide) rfl (.nil _), rfl⟩

/-- A run of one `+` on cell 0, wrapping: for cell 0 under R102 and for cell 1 under R59. -/
theorem witness_cell_laws :
    (st [0x2B#8] 0 (tape := [(0, 255#8), (1, 4#8)])).tape.wf = true ∧
    (∃ t, Trace (st [0x2B#8] 0 (tape := [(0, 255#8), (1, 4#8)])) [⟨.inc, 0⟩] t) ∧
    executedAt .inp 0 [⟨.inc, 0⟩] = 0 ∧ executedAt .inc 1 [⟨.inc, 0⟩] = 0 ∧
    executedAt .dec 1 [⟨.inc, 0⟩] = 0 ∧ executedAt .inp 1 [⟨.inc, 0⟩] = 0 :=
  ⟨by decide, ⟨_, .cons (by decide) rfl (.nil _)⟩, by decide, by decide, by decide, by decide⟩

/-- A run that has taken the only input byte and is about to execute `,` again. -/
theorem witness_CursorCountsExecutedInputs :
    ∃ u, Trace (State.start [0x2C#8, 0x2C#8] [7#8] Config.Caps.unbounded) [⟨.inp, 0⟩] u ∧
      nextInstr u = some .inp ∧ ∃ t, step u = .next t :=
  ⟨_, .cons (by decide) rfl (.nil _), by decide, _, rfl⟩

theorem witness_StepKeepsInvariants :
    (st [0x2B#8] 0 (tape := [(29999, 255#8)]) (dp := 29999)).Inv ∧
    ∃ t, step (st [0x2B#8] 0 (tape := [(29999, 255#8)]) (dp := 29999)) = .next t := ⟨by decide, _, rfl⟩

/-- With the default capacities, and with an OUT that a step has filled to a finite OUT_CAP. -/
theorem witness_ReachableStatesMeetInvariants :
    (∃ t, step (hostReset [0x2B#8] [] (State.start [] [] Config.Caps.unbounded)) = .next t ∧
      Reachable Config.Caps.unbounded t) ∧
    ∃ t, step (hostReset [0x2E#8] [] (State.start [] [] ⟨none, none, some 1⟩)) = .next t ∧
      Reachable ⟨none, none, some 1⟩ t ∧ t.out.length = 1 :=
  ⟨⟨_, rfl, .step (.hostReset [0x2B#8] [] .start) rfl⟩,
   _, rfl, .step (.hostReset [0x2E#8] [] .start) rfl, rfl⟩

theorem witness_TapesThatReadAlikeAreEqual :
    Memory.wf [(0, 1#8), (29999, 255#8)] = true ∧
    ∀ a, Memory.read [(0, 1#8), (29999, 255#8)] a = Memory.read [(0, 1#8), (29999, 255#8)] a :=
  ⟨by decide, fun _ => rfl⟩

theorem witness_RegistersFitTheirHardwareWidths :
    (st [0x2B#8] 1 (dp := 29999) (input := [1#8]) (ic := 1)).Inv ∧
    (st [0x2B#8] 1).prog.length ≤ 1 ∧ (st [0x2B#8] 1 (input := [1#8])).input.length ≤ 1 := by decide

end Sys2Proof.Tests
end

section
/-! PROOFS. What a step leaves alone: the run parameters (spec 00_scope.md R8) and the capacities (R9,
D10). -/

namespace Sys2Proof.Machine

/-- Every effect is built from updates of TAPE, DP, IP, IC, OUT and FAULT, so what a run is given
stays. -/
theorem Effect.keeps_parameters {s t : State} {b : Byte} (h : Effect s b t) :
    t.prog = s.prog ∧ t.input = s.input ∧ t.caps = s.caps := by
  cases h with
  | rightRaises | leftRaises | jzRaises | jnzRaises =>
    exact ⟨State.setFault_prog .., State.setFault_input .., State.setFault_caps ..⟩
  | jzJumps | jnzJumps => exact ⟨State.setIp_prog .., State.setIp_input .., State.setIp_caps ..⟩
  | jzFalls | jnzFalls | nop => exact ⟨advance_prog s, advance_input s, advance_caps s⟩
  | rightMoves | leftMoves | inc | dec | out | inTakes | inEnds => simp

/-- The frame of `step` on the part of the state that no instruction writes. -/
theorem step_keeps_parameters {s t : State} (h : step s = .next t) :
    t.prog = s.prog ∧ t.input = s.input ∧ t.caps = s.caps := by
  obtain ⟨b, -, -, he⟩ := step_effect h
  exact he.keeps_parameters

@[simp] theorem hostReset_caps (prog : List Byte) (input : List IoByte) (s : State) :
    (hostReset prog input s).caps = s.caps := State.start_caps prog input s.caps

/-- Settles O40: no effect of a program byte writes PROG or INPUT. -/
theorem stepKeepsRunParameters : Obligations.StepKeepsRunParameters := by
  intro s t h
  obtain ⟨hprog, hinput, -⟩ := step_keeps_parameters h
  exact ⟨hprog, hinput⟩

/-- Settles O57: no effect of a program byte writes the capacities, and the host's reset hands those it
finds to the start state. -/
theorem stepsAndResetsKeepCapacities : Obligations.StepsAndResetsKeepCapacities := by
  refine ⟨fun s t h => ?_, fun s prog input => hostReset_caps prog input s⟩
  obtain ⟨-, -, hcaps⟩ := step_keeps_parameters h
  exact hcaps

end Sys2Proof.Machine
end

section
/-! PROOFS. The converse of the inversion of `exec` (Laws/Step.lean): each outcome of each instruction,
with the condition under which it comes about. Together they say of every instruction exactly which
next states it answers. -/

namespace Sys2Proof

@[simp] theorem encodeByte_decodeByte (b : Byte) : encodeByte (decodeByte b) = b := by
  rcases decodeByte_cases b with ⟨rfl, hi⟩ | ⟨rfl, hi⟩ | ⟨rfl, hi⟩ | ⟨rfl, hi⟩ | ⟨rfl, hi⟩ |
    ⟨rfl, hi⟩ | ⟨rfl, hi⟩ | ⟨rfl, hi⟩ | ⟨-, hi⟩ <;> rw [hi] <;> rfl

theorem decodeByte_nop {b : Byte} (hb : b ∉ nopExcludes) : decodeByte b = .nop b := by
  rcases decodeByte_cases b with ⟨rfl, -⟩ | ⟨rfl, -⟩ | ⟨rfl, -⟩ | ⟨rfl, -⟩ | ⟨rfl, -⟩ | ⟨rfl, -⟩ |
    ⟨rfl, -⟩ | ⟨rfl, -⟩ | ⟨-, hi⟩
  iterate 8 exact absurd (by decide) hb
  exact hi

@[simp] theorem decodeByte_eq_out_iff {b : Byte} : decodeByte b = .out ↔ b = Opcode.out :=
  ⟨fun h => by rw [← encodeByte_decodeByte b, h]; rfl, fun h => h ▸ decodeByte_out⟩

@[simp] theorem decodeByte_eq_inp_iff {b : Byte} : decodeByte b = .inp ↔ b = Opcode.inp :=
  ⟨fun h => by rw [← encodeByte_decodeByte b, h]; rfl, fun h => h ▸ decodeByte_inp⟩

/-- A byte that decodes to an instruction of the same class. All NOPs behave alike (R73), so one byte
stands for them, also for a NOP term that carries one of the eight instruction bytes. -/
def Instr.classByte : Instr → Byte
  | .nop _ => 0x00#8
  | i => encodeByte i

@[simp] theorem Instr.classByte_eq_out_iff {i : Instr} : i.classByte = Opcode.out ↔ i = .out := by
  cases i with
  | nop b => exact iff_of_false (show 0x00#8 ≠ Opcode.out by decide) Instr.noConfusion
  | _ => decide

@[simp] theorem Instr.classByte_eq_inp_iff {i : Instr} : i.classByte = Opcode.inp ↔ i = .inp := by
  cases i with
  | nop b => exact iff_of_false (show 0x00#8 ≠ Opcode.inp by decide) Instr.noConfusion
  | _ => decide

end Sys2Proof

namespace Sys2Proof.Machine

theorem exec_decodeByte_classByte (i : Instr) : exec (decodeByte i.classByte) = exec i := by
  cases i with
  | nop b =>
    rw [Instr.classByte, decodeByte_nop (by decide)]
    rfl
  | _ => rfl

/-! Each instruction with its condition met. -/

theorem execRight_raises {s : State} (hd : s.dp = Config.tapeLen - 1) :
    execRight s = .next (s.setFault .outOfBounds) := if_pos hd

theorem execRight_moves {s : State} (hd : s.dp ≠ Config.tapeLen - 1) :
    execRight s = .next (advance (s.setDp (s.dp + 1))) := if_neg hd

theorem execLeft_raises {s : State} (hd : s.dp = 0) :
    execLeft s = .next (s.setFault .outOfBounds) := if_pos hd

theorem execLeft_moves {s : State} (hd : s.dp ≠ 0) :
    execLeft s = .next (advance (s.setDp (s.dp - 1))) := if_neg hd

theorem execOut_ok {s : State} (hd : s.dp < Config.tapeLen) (hc : s.OutRoom) :
    execOut s = .next (advance (s.setOut (s.out ++ [s.cell s.dp]))) := by
  rw [execOut, withCur_ok _ hd, outAppend_ok _ hc]

theorem execIn_takes {s : State} (hd : s.dp < Config.tapeLen) (hi : s.ic < s.input.length) :
    execIn s = .next (advance ((s.setIc (s.ic + 1)).setTape
      (Memory.write s.tape s.dp (s.input.getD s.ic 0#8)))) := by
  have hsel : inSelect s = (s.input.getD s.ic 0#8, s.setIc (s.ic + 1)) :=
    if_pos ((inAvail_iff s).mpr hi)
  rw [execIn, hsel]
  exact writeCurAdvance_ok _ hd

theorem execIn_ends {s : State} (hd : s.dp < Config.tapeLen) (hi : s.input.length ≤ s.ic) :
    execIn s = .next (advance (s.setTape (Memory.write s.tape s.dp 0#8))) := by
  have hsel : inSelect s = (0#8, s) := if_neg (by simpa using hi)
  rw [execIn, hsel]
  exact writeCurAdvance_ok _ hd

theorem execJz_falls {s : State} (hd : s.dp < Config.tapeLen) (hz : s.cell s.dp ≠ 0#8) :
    execJz s = .next (advance s) := by
  rw [execJz, withCur_ok _ hd, if_neg (mt (isZero_iff _).mp hz)]

theorem execJz_taken {s : State} (hd : s.dp < Config.tapeLen) (hz : s.cell s.dp = 0#8) :
    execJz s = takeJump (fwdMatch s.prog s.ip) s := by
  rw [execJz, withCur_ok _ hd, if_pos ((isZero_iff _).mpr hz)]

theorem execJnz_falls {s : State} (hd : s.dp < Config.tapeLen) (hz : s.cell s.dp = 0#8) :
    execJnz s = .next (advance s) := by
  rw [execJnz, withCur_ok _ hd, if_pos ((isZero_iff _).mpr hz)]

theorem execJnz_taken {s : State} (hd : s.dp < Config.tapeLen) (hz : s.cell s.dp ≠ 0#8) :
    execJnz s = takeJump (bwdMatch s.prog s.ip) s := by
  rw [execJnz, withCur_ok _ hd, if_neg (mt (isZero_iff _).mp hz)]

@[simp] theorem takeJump_some (m : Nat) (s : State) :
    takeJump (some m) s = .next (s.setIp (m + 1)) := rfl

@[simp] theorem takeJump_none (s : State) :
    takeJump none s = .next (s.setFault .malformedProgram) := rfl

/-- Every effect listed for a byte comes about: the converse of `exec_effect`. -/
theorem Effect.exec_eq {s t : State} {b : Byte} (h : Effect s b t) :
    exec (decodeByte b) s = .next t := by
  cases h with
  | rightRaises hb hd => rw [hb, decodeByte_right]; exact execRight_raises hd
  | rightMoves hb hd => rw [hb, decodeByte_right]; exact execRight_moves hd
  | leftRaises hb hd => rw [hb, decodeByte_left]; exact execLeft_raises hd
  | leftMoves hb hd => rw [hb, decodeByte_left]; exact execLeft_moves hd
  | inc hb hd => rw [hb, decodeByte_inc]; exact modifyCur_ok incByte hd
  | dec hb hd => rw [hb, decodeByte_dec]; exact modifyCur_ok decByte hd
  | out hb hd hc => rw [hb, decodeByte_out]; exact execOut_ok hd hc
  | inTakes hb hd hi => rw [hb, decodeByte_inp]; exact execIn_takes hd hi
  | inEnds hb hd hi => rw [hb, decodeByte_inp]; exact execIn_ends hd hi
  | jzFalls hb hd hz => rw [hb, decodeByte_jz]; exact execJz_falls hd hz
  | jzJumps hb hd hz m hm =>
    rw [hb, decodeByte_jz]; exact (execJz_taken hd hz).trans (by rw [hm, takeJump_some])
  | jzRaises hb hd hz hm =>
    rw [hb, decodeByte_jz]; exact (execJz_taken hd hz).trans (by rw [hm, takeJump_none])
  | jnzFalls hb hd hz => rw [hb, decodeByte_jnz]; exact execJnz_falls hd hz
  | jnzJumps hb hd hz m hm =>
    rw [hb, decodeByte_jnz]; exact (execJnz_taken hd hz).trans (by rw [hm, takeJump_some])
  | jnzRaises hb hd hz hm =>
    rw [hb, decodeByte_jnz]; exact (execJnz_taken hd hz).trans (by rw [hm, takeJump_none])
  | nop hb => rw [decodeByte_nop hb]; rfl

/-- The next states of an instruction are the effects of its byte, no more and no fewer. -/
theorem exec_next_iff_effect {i : Instr} {s t : State} :
    exec i s = .next t ↔ Effect s i.classByte t := by
  rw [← exec_decodeByte_classByte i]
  exact ⟨exec_effect, Effect.exec_eq⟩

end Sys2Proof.Machine
end

section
/-! PROOFS. The state and its registers (spec 10_state.md): what the host's reset and its read of OUT
give, how OUT and IC move, and on which parts of the state an instruction does not depend. -/

namespace Sys2Proof.Machine

/-! The host's side (R28, R37, R39, R170). -/

theorem status_start (prog : List Byte) (input : List IoByte) (caps : Config.Caps) :
    status (State.start prog input caps) = if 0 < prog.length then .running else .halted := rfl

/-- Settles O1: the host's reset is the start state, field by field. -/
theorem hostResetEstablishesResetState : Obligations.HostResetEstablishesResetState := by
  intro s prog input
  exact ⟨State.start_cell prog input s.caps, State.start_dp .., State.start_ip ..,
    State.start_ic .., State.start_out .., State.start_fault .., State.start_prog ..,
    State.start_input .., status_start prog input s.caps⟩

theorem hostOut_of_running {s : State} (h : hostStatus s = .running) : hostOut s = none := by
  rw [hostStatus] at h
  rw [hostOut, h]

theorem hostOut_of_ended {s : State} (h : hostStatus s ≠ .running) : hostOut s = some s.out := by
  rw [hostStatus] at h
  unfold hostOut
  cases hst : status s with
  | running => exact absurd hst h
  | halted => rfl
  | faulted => rfl

/-- Settles O3: the host's read of OUT follows STATUS. -/
theorem hostReadsOutputOnlyAfterRunEnds : Obligations.HostReadsOutputOnlyAfterRunEnds :=
  fun _ => ⟨hostOut_of_running, hostOut_of_ended⟩

/-! OUT (R24). -/

theorem Effect.out_cases {s t : State} {b : Byte} (h : Effect s b t) :
    (b ≠ Opcode.out ∧ t.out = s.out) ∨ (b = Opcode.out ∧ t.out = s.out ++ [s.cell s.dp]) := by
  cases h with
  | out hb => exact .inr ⟨hb, rfl⟩
  | nop hb => exact .inl ⟨fun h => hb (h ▸ by decide), rfl⟩
  | rightRaises hb | rightMoves hb | leftRaises hb | leftMoves hb | inc hb | dec hb | inTakes hb
  | inEnds hb | jzFalls hb | jzJumps hb | jzRaises hb | jnzFalls hb | jnzJumps hb
  | jnzRaises hb => exact .inl ⟨hb ▸ by decide, rfl⟩

theorem step_out_cases {s t : State} (h : step s = .next t) :
    (nextInstr s ≠ some .out ∧ t.out = s.out) ∨
    (nextInstr s = some .out ∧ t.out = s.out ++ [s.cell s.dp]) := by
  obtain ⟨b, hb, -, he⟩ := step_effect h
  simpa [nextInstr, hb] using he.out_cases

theorem executed_cons (i : Instr) (e : Event) (es : List Event) :
    executed i (e :: es) = executed i es + if e.instr = i then 1 else 0 := by
  simp [executed, List.countP_cons]

/-- A run only appends to OUT, one byte for each executed `.`. -/
theorem Trace.out_eq_append {s t : State} {es : List Event} (h : Trace s es t) :
    ∃ added, t.out = s.out ++ added ∧ added.length = executed .out es := by
  induction h with
  | nil s => exact ⟨[], (List.append_nil _).symm, rfl⟩
  | @cons s u t i es hi hs ht ih =>
    obtain ⟨added, hout, hlen⟩ := ih
    obtain ⟨hne, hu⟩ | ⟨heq, hu⟩ := step_out_cases hs
    · have hi' : i ≠ .out := fun h => hne (h ▸ hi)
      exact ⟨added, by rw [hout, hu], by simp [executed_cons, hi', hlen]⟩
    · obtain rfl : i = .out := Option.some.inj (hi.symm.trans heq)
      exact ⟨s.cell s.dp :: added, by simp [hout, hu], by simp [executed_cons, hlen]⟩

/-- An executed `.` found room in OUT and appended the current cell. -/
theorem Effect.eq_of_out {s t : State} (h : Effect s Opcode.out t) :
    s.dp < Config.tapeLen ∧ s.OutRoom ∧ t = advance (s.setOut (s.out ++ [s.cell s.dp])) := by
  have hexec := h.exec_eq
  rw [decodeByte_out] at hexec
  exact execOut_cases hexec

/-- A byte other than `.` has the same effect whatever OUT holds and, unless it is `,`, whatever the
input is. -/
theorem Effect.with_io {s t : State} {b : Byte} (x : List IoByte) (o : List IoByte)
    (hinp : b = Opcode.inp → x = s.input) (hout : b ≠ Opcode.out) (h : Effect s b t) :
    Effect { s with input := x, out := o } b { t with input := x, out := o } := by
  cases h with
  | rightRaises hb hd => exact .rightRaises hb hd
  | rightMoves hb hd => exact .rightMoves hb hd
  | leftRaises hb hd => exact .leftRaises hb hd
  | leftMoves hb hd => exact .leftMoves hb hd
  | inc hb hd => exact .inc hb hd
  | dec hb hd => exact .dec hb hd
  | out hb => exact absurd hb hout
  | inTakes hb hd hi =>
    rw [hinp hb]
    exact .inTakes (s := { s with out := o }) hb hd hi
  | inEnds hb hd hi =>
    rw [hinp hb]
    exact .inEnds (s := { s with out := o }) hb hd hi
  | jzFalls hb hd hz => exact .jzFalls hb hd hz
  | jzJumps hb hd hz m hm => exact .jzJumps (s := { s with input := x, out := o }) hb hd hz m hm
  | jzRaises hb hd hz hm => exact .jzRaises hb hd hz hm
  | jnzFalls hb hd hz => exact .jnzFalls hb hd hz
  | jnzJumps hb hd hz m hm => exact .jnzJumps (s := { s with input := x, out := o }) hb hd hz m hm
  | jnzRaises hb hd hz hm => exact .jnzRaises hb hd hz hm
  | nop hb => exact .nop hb

/-- OUT is not read: with other contents of OUT, and room for what is appended, the effect is the same
and the same bytes are appended. -/
theorem Effect.append_to_any_out {s t : State} {b : Byte} (o : List IoByte)
    (hroom : b = Opcode.out → (s.setOut o).OutRoom) (h : Effect s b t) :
    ∃ added, t.out = s.out ++ added ∧ Effect (s.setOut o) b (t.setOut (o ++ added)) := by
  obtain ⟨hne, hout⟩ | ⟨rfl, hout⟩ := h.out_cases
  · refine ⟨[], by rw [hout, List.append_nil], ?_⟩
    obtain ⟨-, hinput, -⟩ := h.keeps_parameters
    have ht : t.setOut o = { t with input := s.input, out := o } := by rw [← hinput]; rfl
    rw [List.append_nil, ht]
    exact h.with_io s.input o (fun _ => rfl) hne
  · obtain ⟨hd, -, rfl⟩ := h.eq_of_out
    exact ⟨[s.cell s.dp], rfl, .out (s := s.setOut o) rfl hd (hroom rfl)⟩

/-- Settles O43: the effects of the bytes on OUT, and an induction over the run. -/
theorem outputIsAppendOnlyAndNeverRead : Obligations.OutputIsAppendOnlyAndNeverRead := by
  refine ⟨State.start_out, fun s t h => ?_, fun s t es h => h.out_eq_append,
    fun s t i o hroom h => ?_⟩
  · obtain ⟨-, hout⟩ | hout := step_out_cases h
    · exact .inl hout
    · exact .inr hout
  · simp only [exec_next_iff_effect] at h ⊢
    exact h.append_to_any_out o fun hb => hroom (Instr.classByte_eq_out_iff.mp hb)

/-! IC (R23). -/

theorem Effect.ic_cases {s t : State} {b : Byte} (h : Effect s b t) :
    t.ic = s.ic ∨ (b = Opcode.inp ∧ s.ic < s.input.length ∧ t.ic = s.ic + 1) := by
  cases h with
  | inTakes hb hd hi => exact .inr ⟨hb, hi, rfl⟩
  | _ => exact .inl rfl

/-- Settles O44: IC moves only where `,` takes a byte, and INPUT stays. -/
theorem cursorOnlyMovesForwardWithinInput : Obligations.CursorOnlyMovesForwardWithinInput := by
  refine ⟨State.start_ic, fun s t hle h => ?_⟩
  obtain ⟨-, hinput, -⟩ := step_keeps_parameters h
  obtain ⟨b, hb, -, he⟩ := step_effect h
  rw [hinput]
  obtain hic | ⟨rfl, hlt, hic⟩ := he.ic_cases
  · exact ⟨hic ▸ hle, .inl hic⟩
  · exact ⟨hic ▸ hlt, .inr ⟨by simp [nextInstr, hb], hlt, hic⟩⟩

/-! INPUT (R30, R113). -/

/-- A byte other than `,` has the same effect whatever the input is. -/
theorem Effect.with_input {s t : State} {b : Byte} (x : List IoByte) (hne : b ≠ Opcode.inp)
    (h : Effect s b t) : Effect { s with input := x } b { t with input := x } := by
  obtain ⟨hb, hout⟩ | ⟨rfl, -⟩ := h.out_cases
  · have ht : { t with input := x } = { t with input := x, out := s.out } := by rw [← hout]
    rw [ht]
    exact h.with_io x s.out (fun hinp => absurd hinp hne) hb
  · obtain ⟨hd, hc, rfl⟩ := h.eq_of_out
    exact .out (s := { s with input := x }) rfl hd hc

/-- Settles O45: no effect of a byte other than `,` looks at INPUT. -/
theorem unreadInputHasNoEffect : Obligations.UnreadInputHasNoEffect := by
  intro s t i x hne h
  rw [exec_next_iff_effect] at h ⊢
  exact h.with_input x (mt Instr.classByte_eq_inp_iff.mp hne)

/-! The tape (R20). -/

/-- `t'` is what `t` is at cell `a` and in every register that an instruction writes, and the tape `m`
at every other cell. -/
def AgreesAt (a : Nat) (m : Memory) (t t' : State) : Prop :=
  t'.cell a = t.cell a ∧ t'.dp = t.dp ∧ t'.ip = t.ip ∧ t'.ic = t.ic ∧ t'.out = t.out ∧
  t'.fault = t.fault ∧ ∀ c, c ≠ a → t'.cell c = Memory.read m c

theorem agreesAt_setTape {a : Nat} {m : Memory} {t : State} (h : Memory.read m a = t.cell a) :
    AgreesAt a m t (t.setTape m) :=
  ⟨h, rfl, rfl, rfl, rfl, rfl, fun _ _ => rfl⟩

theorem agreesAt_write {a : Nat} {m : Memory} {u : State} (v : Cell) (hu : u.tape.wf = true)
    (hm : m.wf = true) :
    AgreesAt a m (advance (u.setTape (Memory.write u.tape a v)))
      (advance (u.setTape (Memory.write m a v))) :=
  ⟨(Memory.read_write_same a v hm).trans (Memory.read_write_same a v hu).symm,
    rfl, rfl, rfl, rfl, rfl, fun _ hc => Memory.read_write_other m v hc⟩

/-- On another tape that agrees on the current cell, a byte has the same effect there and leaves every
other cell of that tape. -/
theorem Effect.on_agreeing_tape {s t : State} {b : Byte} {m : Memory} (hs : s.tape.wf = true)
    (hm : m.wf = true) (hcell : Memory.read m s.dp = s.cell s.dp) (h : Effect s b t) :
    ∃ t', Effect (s.setTape m) b t' ∧ AgreesAt s.dp m t t' := by
  cases h with
  | rightRaises hb hd => exact ⟨_, .rightRaises hb hd, agreesAt_setTape hcell⟩
  | rightMoves hb hd => exact ⟨_, .rightMoves hb hd, agreesAt_setTape hcell⟩
  | leftRaises hb hd => exact ⟨_, .leftRaises hb hd, agreesAt_setTape hcell⟩
  | leftMoves hb hd => exact ⟨_, .leftMoves hb hd, agreesAt_setTape hcell⟩
  | inc hb hd =>
    rw [← hcell]
    exact ⟨_, .inc hb hd, agreesAt_write _ hs hm⟩
  | dec hb hd =>
    rw [← hcell]
    exact ⟨_, .dec hb hd, agreesAt_write _ hs hm⟩
  | out hb hd hc =>
    rw [← hcell]
    exact ⟨_, .out hb hd hc, agreesAt_setTape hcell⟩
  | inTakes hb hd hi => exact ⟨_, .inTakes hb hd hi, agreesAt_write (u := s.setIc _) _ hs hm⟩
  | inEnds hb hd hi => exact ⟨_, .inEnds hb hd hi, agreesAt_write _ hs hm⟩
  | jzFalls hb hd hz =>
    rw [← hcell] at hz
    exact ⟨_, .jzFalls hb hd hz, agreesAt_setTape hcell⟩
  | jzJumps hb hd hz n hn =>
    rw [← hcell] at hz
    exact ⟨_, .jzJumps (s := s.setTape m) hb hd hz n hn, agreesAt_setTape hcell⟩
  | jzRaises hb hd hz hn =>
    rw [← hcell] at hz
    exact ⟨_, .jzRaises hb hd hz hn, agreesAt_setTape hcell⟩
  | jnzFalls hb hd hz =>
    rw [← hcell] at hz
    exact ⟨_, .jnzFalls hb hd hz, agreesAt_setTape hcell⟩
  | jnzJumps hb hd hz n hn =>
    rw [← hcell] at hz
    exact ⟨_, .jnzJumps (s := s.setTape m) hb hd hz n hn, agreesAt_setTape hcell⟩
  | jnzRaises hb hd hz hn =>
    rw [← hcell] at hz
    exact ⟨_, .jnzRaises hb hd hz hn, agreesAt_setTape hcell⟩
  | nop hb => exact ⟨_, .nop hb, agreesAt_setTape hcell⟩

/-- Settles O46: an effect is a function of the current cell alone, and writes no other. -/
theorem onlyTheCurrentCellIsRead : Obligations.OnlyTheCurrentCellIsRead := by
  intro s t i m hs hm hcell h
  obtain ⟨t', he, hagree⟩ := (exec_next_iff_effect.mp h).on_agreeing_tape hs hm hcell
  exact ⟨t', exec_next_iff_effect.mpr he, hagree⟩

end Sys2Proof.Machine
end

section
/-! PROOFS. The memory model (spec 20_memory.md): which steps write a tape cell, and that a cell keeps
its value over a run without them. -/

namespace Sys2Proof

/-- The three instructions that write the tape (R20). -/
def Instr.WritesTape (i : Instr) : Prop := i = .inc ∨ i = .dec ∨ i = .inp

end Sys2Proof

namespace Sys2Proof.Machine

/-- A byte leaves a cell as it is, unless it writes the tape and the cell is the current one. -/
theorem Effect.cell_eq_or_writes {s t : State} {b : Byte} (a : Nat) (h : Effect s b t) :
    t.cell a = s.cell a ∨ (s.dp = a ∧ (decodeByte b).WritesTape) := by
  by_cases ha : s.dp = a
  · cases h with
    | inc hb => exact .inr ⟨ha, hb ▸ .inl decodeByte_inc⟩
    | dec hb => exact .inr ⟨ha, hb ▸ .inr (.inl decodeByte_dec)⟩
    | inTakes hb | inEnds hb => exact .inr ⟨ha, hb ▸ .inr (.inr decodeByte_inp)⟩
    | _ => exact .inl rfl
  · cases h with
    | inc | dec | inTakes | inEnds => exact .inl (Memory.read_write_other s.tape _ (Ne.symm ha))
    | _ => exact .inl rfl

theorem step_cell_eq_or_writes {s t : State} {i : Instr} (a : Nat) (hi : nextInstr s = some i)
    (h : step s = .next t) : t.cell a = s.cell a ∨ (s.dp = a ∧ i.WritesTape) := by
  obtain ⟨b, hb, -, he⟩ := step_effect h
  obtain rfl : decodeByte b = i := by simpa [nextInstr, hb] using hi
  exact he.cell_eq_or_writes a

theorem executedAt_eq_zero_iff {i : Instr} {a : Nat} {es : List Event} :
    executedAt i a es = 0 ↔ ∀ e ∈ es, e.dp = a → e.instr ≠ i := by
  simp [executedAt, List.countP_eq_zero, imp_not_comm]

/-- A run in which no event on a cell is a writer of the tape leaves the cell as it is. -/
theorem Trace.cell_eq {s t : State} {es : List Event} {a : Nat} (h : Trace s es t)
    (hno : ∀ e ∈ es, e.dp = a → ¬ e.instr.WritesTape) : t.cell a = s.cell a := by
  induction h with
  | nil s => rfl
  | @cons s u t i es hi hs ht ih =>
    obtain ⟨hnow, hlater⟩ := List.forall_mem_cons.mp hno
    have hstep : u.cell a = s.cell a :=
      (step_cell_eq_or_writes a hi hs).resolve_right fun ⟨hdp, hw⟩ => hnow hdp hw
    exact (ih hlater).trans hstep

/-- Settles O49: no step of the run writes the cell, by induction over the run. -/
theorem cellKeepsValueUntilWritten : Obligations.CellKeepsValueUntilWritten := by
  intro s t es a h hinc hdec hinp
  rw [executedAt_eq_zero_iff] at hinc hdec hinp
  refine h.cell_eq fun e he hdp hw => ?_
  obtain hi | hi | hi := hw
  · exact hinc e he hdp hi
  · exact hdec e he hdp hi
  · exact hinp e he hdp hi

end Sys2Proof.Machine
end

section
/-! PROOFS. The encoding (spec 30_encoding.md): the step runs the decoded byte at IP and completes (R77),
IP goes to the next instruction or past the match (R78), and the scans pass over every byte that is no
bracket (R76). -/

namespace Sys2Proof.Machine

/-! The execution step (R77). -/

/-- Settles O10: the fetch finds the decoded byte. -/
theorem stepRunsDecodedInstruction : Obligations.StepRunsDecodedInstruction := by
  intro s b ⟨hprog, hinput⟩ hf hb
  rw [step, fetch_run hprog hinput hf hb]

/-- With DP on the tape, and room in OUT for a `.`, every byte has an effect. -/
theorem exists_effect {s : State} {b : Byte} (hd : s.dp < Config.tapeLen)
    (hroom : b = Opcode.out → s.OutRoom) : ∃ t, Effect s b t := by
  rcases decodeByte_cases b with ⟨hb, -⟩ | ⟨hb, -⟩ | ⟨hb, -⟩ | ⟨hb, -⟩ | ⟨hb, -⟩ | ⟨hb, -⟩ |
    ⟨hb, -⟩ | ⟨hb, -⟩ | ⟨hb, -⟩
  · by_cases hend : s.dp = Config.tapeLen - 1
    · exact ⟨_, .rightRaises hb hend⟩
    · exact ⟨_, .rightMoves hb hend⟩
  · by_cases hend : s.dp = 0
    · exact ⟨_, .leftRaises hb hend⟩
    · exact ⟨_, .leftMoves hb hend⟩
  · exact ⟨_, .inc hb hd⟩
  · exact ⟨_, .dec hb hd⟩
  · exact ⟨_, .out hb hd (hroom hb)⟩
  · obtain hi | hi := Nat.lt_or_ge s.ic s.input.length
    · exact ⟨_, .inTakes hb hd hi⟩
    · exact ⟨_, .inEnds hb hd hi⟩
  · by_cases hz : s.cell s.dp = 0#8
    · cases hm : fwdMatch s.prog s.ip with
      | none => exact ⟨_, .jzRaises hb hd hz hm⟩
      | some m => exact ⟨_, .jzJumps hb hd hz m hm⟩
    · exact ⟨_, .jzFalls hb hd hz⟩
  · by_cases hz : s.cell s.dp = 0#8
    · exact ⟨_, .jnzFalls hb hd hz⟩
    · cases hm : bwdMatch s.prog s.ip with
      | none => exact ⟨_, .jnzRaises hb hd hz hm⟩
      | some m => exact ⟨_, .jnzJumps hb hd hz m hm⟩
  · exact ⟨_, .nop hb⟩

/-- Settles O12: a RUNNING block has a byte at IP, the step runs it, and it has an effect. -/
theorem runningStepCompletes : Obligations.RunningStepCompletes := by
  rintro s ⟨hd, -⟩ hcaps hrun hout
  obtain ⟨hf, hlt⟩ := status_running_iff.mp hrun
  have hb := List.getElem?_eq_getElem hlt
  have hroom : s.prog[s.ip] = Opcode.out → s.OutRoom := fun heq =>
    hout.resolve_right fun hne => hne (hb.trans (congrArg some heq))
  obtain ⟨t, he⟩ := exists_effect hd hroom
  exact ⟨t, (stepRunsDecodedInstruction s _ hcaps hf hb).trans he.exec_eq⟩

/-! The advance of IP (R78). -/

theorem fwdMatch_range {prog : List Byte} {p m : Nat} (h : fwdMatch prog p = some m) :
    p < m ∧ m < prog.length := by
  have := fwdScan_range h
  rw [List.length_drop] at this
  omega

theorem bwdMatch_range {prog : List Byte} {p m : Nat} (h : bwdMatch prog p = some m) :
    m < p ∧ m < prog.length := bwdScan_range h

/-- A byte raises a fault and leaves IP, or jumps past the match, or goes to the next instruction. -/
theorem Effect.ip_cases {s t : State} {b : Byte} (h : Effect s b t) :
    (t.fault ≠ .noFault ∧ t.ip = s.ip) ∨
    (t.fault = s.fault ∧
      ((b = Opcode.jz ∧ s.cell s.dp = 0#8 ∧ ∃ m, fwdMatch s.prog s.ip = some m ∧ t.ip = m + 1) ∨
       (b = Opcode.jnz ∧ s.cell s.dp ≠ 0#8 ∧ ∃ m, bwdMatch s.prog s.ip = some m ∧ t.ip = m + 1) ∨
       (¬ (b = Opcode.jz ∧ s.cell s.dp = 0#8) ∧ ¬ (b = Opcode.jnz ∧ s.cell s.dp ≠ 0#8) ∧
        t.ip = s.ip + 1))) := by
  cases h with
  | rightRaises | leftRaises | jzRaises | jnzRaises => exact .inl ⟨FaultReg.noConfusion, rfl⟩
  | jzJumps hb hd hz m hm => exact .inr ⟨rfl, .inl ⟨hb, hz, m, hm, rfl⟩⟩
  | jnzJumps hb hd hz m hm => exact .inr ⟨rfl, .inr (.inl ⟨hb, hz, m, hm, rfl⟩)⟩
  | jzFalls hb hd hz =>
    have hjnz : b ≠ Opcode.jnz := hb ▸ by decide
    exact .inr ⟨rfl, .inr (.inr ⟨fun h => hz h.2, fun h => hjnz h.1, rfl⟩)⟩
  | jnzFalls hb hd hz =>
    have hjz : b ≠ Opcode.jz := hb ▸ by decide
    exact .inr ⟨rfl, .inr (.inr ⟨fun h => hjz h.1, fun h => h.2 hz, rfl⟩)⟩
  | nop hb =>
    have hbracket : NonBracket b := ⟨fun h => hb (h ▸ by decide), fun h => hb (h ▸ by decide)⟩
    exact .inr ⟨rfl, .inr (.inr ⟨fun h => hbracket.1 h.1, fun h => hbracket.2 h.1, rfl⟩)⟩
  | rightMoves hb | leftMoves hb | inc hb | dec hb | out hb | inTakes hb | inEnds hb =>
    have hbracket : NonBracket b := hb ▸ by decide
    exact .inr ⟨rfl, .inr (.inr ⟨fun h => hbracket.1 h.1, fun h => hbracket.2 h.1, rfl⟩)⟩

/-- Settles O42: the three ways of IP, and the scans' range for the bound. -/
theorem ipAdvancesOrJumpsPastMatch : Obligations.IpAdvancesOrJumpsPastMatch := by
  intro s t h
  obtain ⟨b, hb, hf, he⟩ := step_effect h
  obtain ⟨hlt, -⟩ := List.getElem?_eq_some_iff.mp hb
  rw [hb]
  simp only [Option.some.injEq]
  obtain ⟨hfault, hip⟩ | ⟨hfault, hways⟩ := he.ip_cases
  · exact ⟨fun _ => hip, fun h => absurd h hfault, by omega⟩
  · refine ⟨fun h => absurd (hfault.trans hf) h, fun _ => hways, ?_⟩
    obtain ⟨-, -, m, hm, hip⟩ | ⟨-, -, m, hm, hip⟩ | ⟨-, -, hip⟩ := hways
    · have := fwdMatch_range hm
      omega
    · have := bwdMatch_range hm
      omega
    · omega

/-! Bytes that are no bracket (R76, R129). -/

theorem fwdDepth_of_nonBracket {b : Byte} (hb : NonBracket b) (depth : Nat) :
    fwdDepth b depth = depth := by
  rw [fwdDepth, if_neg hb.1, if_neg hb.2]

theorem bwdDepth_of_nonBracket {b : Byte} (hb : NonBracket b) (depth : Nat) :
    bwdDepth b depth = depth := by
  rw [bwdDepth, if_neg hb.2, if_neg hb.1]

section
variable {prog : List Byte} {q : Nat} {b c : Byte}

/-- The forward scan does not see a non-bracket byte replaced by another among the bytes ahead. -/
theorem fwdScan_set (hq : prog[q]? = some b) (hb : NonBracket b) (hc : NonBracket c)
    (sp depth : Nat) : fwdScan (prog.set q c) sp depth = fwdScan prog sp depth := by
  induction prog generalizing q sp depth with
  | nil => rfl
  | cons a rest ih =>
    cases q with
    | zero =>
      obtain rfl : a = b := by simpa using hq
      simp only [List.set_cons_zero, fwdScan_cons, fwdDepth_of_nonBracket hb,
        fwdDepth_of_nonBracket hc]
    | succ q =>
      rw [List.getElem?_cons_succ] at hq
      simp only [List.set_cons_succ, fwdScan_cons, ih hq]

theorem fwdMatch_set (hq : prog[q]? = some b) (hb : NonBracket b) (hc : NonBracket c) (p : Nat) :
    fwdMatch (prog.set q c) p = fwdMatch prog p := by
  rw [fwdMatch, fwdMatch, List.drop_set]
  split
  · rfl
  · next hle =>
    have hahead : (prog.drop (p + 1))[q - (p + 1)]? = some b := by
      rw [List.getElem?_drop, Nat.add_sub_cancel' (by omega), hq]
    exact fwdScan_set hahead hb hc (p + 1) 1

/-- The backward scan does not see a non-bracket byte of the program replaced by another. -/
theorem bwdScan_set (hq : prog[q]? = some b) (hb : NonBracket b) (hc : NonBracket c)
    (sp depth : Nat) : bwdScan (prog.set q c) sp depth = bwdScan prog sp depth := by
  induction sp generalizing depth with
  | zero => rfl
  | succ sp ih =>
    simp only [bwdScan_succ, ih]
    by_cases hsp : q = sp
    · subst hsp
      have hnew : progRead (prog.set q c) q = some c := by
        rw [progRead, List.getElem?_set_self (List.getElem?_eq_some_iff.mp hq).1]
      have hold : progRead prog q = some b := hq
      simp only [hnew, hold, bwdDepth_of_nonBracket hb, bwdDepth_of_nonBracket hc]
    · have hsame : progRead (prog.set q c) sp = progRead prog sp := List.getElem?_set_ne hsp
      rw [hsame]

end

/-- Settles O33: neither loop sees the replaced byte, by induction over its passes. -/
theorem scansPassOverNonBracketBytes : Obligations.ScansPassOverNonBracketBytes :=
  fun _ _ _ _ hq hb hc p => ⟨fwdMatch_set hq hb hc p, bwdScan_set hq hb hc p 1⟩

end Sys2Proof.Machine
end

section
/-! PROOFS. The pointer moves (spec 40_pointer_moves.md): what `>` and `<` write when DP stays on the
tape, and that they leave the rest. -/

namespace Sys2Proof.Machine

theorem exec_right (s : State) : exec .right s = execRight s := rfl

theorem exec_left (s : State) : exec .left s = execLeft s := rfl

/-- The frame of a pointer move that completes, to either side: only DP and IP are written. -/
theorem advance_setDp_frame (s : State) (a : Nat) :
    SameTape s (advance (s.setDp a)) ∧ (advance (s.setDp a)).ic = s.ic ∧
      (advance (s.setDp a)).out = s.out ∧ (advance (s.setDp a)).fault = s.fault ∧
      SameParams s (advance (s.setDp a)) := by
  simp [SameTape, SameParams]

/-- Settles O14: 29999 is the last cell (TAPE_LEN − 1), so below it `>` moves. -/
theorem rightMovesPointerUp : Obligations.RightMovesPointerUp := by
  intro s hd
  have hmoves : exec .right s = .next (advance (s.setDp (s.dp + 1))) :=
    (exec_right s).trans (execRight_moves hd)
  exact ⟨_, hmoves, by simp, by simp, advance_setDp_frame s (s.dp + 1)⟩

/-- Settles O15: above cell 0 the subtraction is exact, so one added to the new DP is the old one. -/
theorem leftMovesPointerDown : Obligations.LeftMovesPointerDown := by
  intro s hd
  have hmoves : exec .left s = .next (advance (s.setDp (s.dp - 1))) :=
    (exec_left s).trans (execLeft_moves hd)
  have hdp : s.dp - 1 + 1 = s.dp := Nat.sub_one_add_one hd
  exact ⟨_, hmoves, by simpa using hdp, by simp, advance_setDp_frame s (s.dp - 1)⟩

end Sys2Proof.Machine
end

section
/-! PROOFS. The cell arithmetic (spec 41_cell_arithmetic.md): what `+` and `-` write, that they undo each
other (R100, R101), the law of a cell over a run (R102), and the zero test of the brackets (R103). -/

namespace Sys2Proof.Machine

theorem exec_inc (s : State) : exec .inc s = modifyCur incByte s := rfl

theorem exec_dec (s : State) : exec .dec s = modifyCur decByte s := rfl

@[simp] theorem decByte_incByte (v : Cell) : decByte (incByte v) = v := BitVec.add_sub_cancel v 1#8

@[simp] theorem incByte_decByte (v : Cell) : incByte (decByte v) = v := BitVec.sub_add_cancel v 1#8

/-! One execution of `+` or `-` (R100, R101). -/

/-- The current cell after a read-modify-write of a canonical tape. -/
theorem modifyCur_cell {s t : State} {f : Cell → Cell} (hwf : s.tape.wf = true)
    (h : modifyCur f s = .next t) : t.cell s.dp = f (s.cell s.dp) := by
  obtain ⟨-, rfl⟩ := modifyCur_cases h
  exact Memory.read_write_same s.dp _ hwf

/-- The frame of a read-modify-write: only the current cell and IP are written. -/
theorem modifyCur_frame {s t : State} {f : Cell → Cell} (h : modifyCur f s = .next t) :
    (∀ a, a ≠ s.dp → t.cell a = s.cell a) ∧ t.ip = s.ip + 1 ∧
      t.dp = s.dp ∧ t.ic = s.ic ∧ t.out = s.out ∧ t.fault = s.fault ∧ SameParams s t := by
  obtain ⟨-, rfl⟩ := modifyCur_cases h
  exact ⟨fun a ha => Memory.read_write_other s.tape _ ha, rfl, rfl, rfl, rfl, rfl, rfl, rfl, rfl⟩

/-- Settles O17: the 8-bit sum is the sum modulo 256. -/
theorem incAddsOneModulo256 : Obligations.IncAddsOneModulo256 := by
  intro s hd hwf
  have h := modifyCur_ok incByte hd
  exact ⟨_, (exec_inc s).trans h, by rw [modifyCur_cell hwf h, incByte_toNat], modifyCur_frame h⟩

/-- Settles O18: 8-bit subtraction adds 255, which is −1 modulo 256. -/
theorem decSubtractsOneModulo256 : Obligations.DecSubtractsOneModulo256 := by
  intro s hd hwf
  have h := modifyCur_ok decByte hd
  refine ⟨_, (exec_dec s).trans h, ?_, modifyCur_frame h⟩
  rw [modifyCur_cell hwf h, decByte_toNat]
  omega

/-! `+` and `-` undo each other (R101). The canonical form makes tapes that read alike equal. -/

/-- An index that does not read as unlisted is one that a canonical tape may list. -/
theorem Memory.le_of_read_ne {lo a : Nat} {m : List TapeEntry} (h : Memory.wfFrom lo m = true)
    (ha : Memory.read m a ≠ unlistedCell) : lo ≤ a :=
  Nat.le_of_not_lt fun hlt => ha (Memory.read_of_lt h hlt)

/-- Two canonical tapes that read alike are equal: their first listed indices are, each being the least
index that does not read as unlisted. -/
theorem Memory.eq_of_read_eq {lo : Nat} {m m' : List TapeEntry} (hm : Memory.wfFrom lo m = true)
    (hm' : Memory.wfFrom lo m' = true) (hread : ∀ a, Memory.read m a = Memory.read m' a) :
    m = m' := by
  induction m generalizing lo m' with
  | nil =>
    cases m' with
    | nil => rfl
    | cons c' rest' =>
      obtain ⟨k', v'⟩ := c'
      obtain ⟨-, -, hv', -⟩ := Memory.wfFrom_cons.mp hm'
      exact absurd (by simpa [Memory.read_cons] using (hread k').symm) hv'
  | cons c rest ih =>
    obtain ⟨k, v⟩ := c
    obtain ⟨-, hk, hv, hrest⟩ := Memory.wfFrom_cons.mp hm
    cases m' with
    | nil => exact absurd (by simpa [Memory.read_cons] using hread k) hv
    | cons c' rest' =>
      obtain ⟨k', v'⟩ := c'
      obtain ⟨-, hk', hv', hrest'⟩ := Memory.wfFrom_cons.mp hm'
      have hle : k' ≤ k :=
        Memory.le_of_read_ne (Memory.wfFrom_cons.mpr ⟨le_rfl, hk', hv', hrest'⟩)
          (by simpa [← hread, Memory.read_cons] using hv)
      have hge : k ≤ k' :=
        Memory.le_of_read_ne (Memory.wfFrom_cons.mpr ⟨le_rfl, hk, hv, hrest⟩)
          (by simpa [hread, Memory.read_cons] using hv')
      obtain rfl : k = k' := le_antisymm hge hle
      obtain rfl : v = v' := by simpa [Memory.read_cons] using hread k
      have hrests : ∀ a, Memory.read rest a = Memory.read rest' a := fun a => by
        by_cases ha : a = k
        · rw [Memory.read_of_lt hrest (by omega), Memory.read_of_lt hrest' (by omega)]
        · simpa [Memory.read_cons, ha] using hread a
      rw [ih hrest hrest' hrests]

/-- Writing a cell and then its old value again gives back the tape. -/
theorem Memory.write_write_read {m : Memory} {a : Nat} (v : Cell) (hm : m.wf = true)
    (ha : a < Config.tapeLen) : Memory.write (Memory.write m a v) a (Memory.read m a) = m := by
  have hv := Memory.write_wf v hm ha
  refine Memory.eq_of_read_eq (Memory.write_wf _ hv ha) hm fun c => ?_
  by_cases hc : c = a
  · rw [hc, Memory.read_write_same a _ hv]
  · rw [Memory.read_write_other _ _ hc, Memory.read_write_other _ _ hc]

/-- A read-modify-write and then one with the inverse function give back a canonical tape. -/
theorem modifyCur_undo {s t u : State} {f g : Cell → Cell} (hgf : ∀ v, g (f v) = v)
    (hwf : s.tape.wf = true) (ht : modifyCur f s = .next t) (hu : modifyCur g t = .next u) :
    u.tape = s.tape := by
  have hcell : g (t.cell s.dp) = s.cell s.dp := by rw [modifyCur_cell hwf ht, hgf]
  obtain ⟨hd, rfl⟩ := modifyCur_cases ht
  obtain ⟨-, rfl⟩ := modifyCur_cases hu
  simp only [advance_tape, State.setTape_tape, advance_dp, State.setTape_dp, hcell]
  exact Memory.write_write_read _ hwf hd

/-- Settles O19: `incByte` and `decByte` are inverse, and the canonical tape is the only one that reads
as it does. -/
theorem incAndDecUndoEachOther : Obligations.IncAndDecUndoEachOther := by
  rintro s t u i j (⟨rfl, rfl⟩ | ⟨rfl, rfl⟩) hwf ht hu
  · rw [exec_inc] at ht
    rw [exec_dec] at hu
    exact modifyCur_undo decByte_incByte hwf ht hu
  · rw [exec_dec] at ht
    rw [exec_inc] at hu
    exact modifyCur_undo incByte_decByte hwf ht hu

/-! The law of a cell over a run (R102). -/

/-- Only the writers of the tape touch it, and they write inside it. -/
theorem Effect.keeps_tape_wf {s t : State} {b : Byte} (h : Effect s b t) (hwf : s.tape.wf = true) :
    t.tape.wf = true := by
  cases h with
  | inc hb hd | dec hb hd | inTakes hb hd | inEnds hb hd => exact Memory.write_wf _ hwf hd
  | _ => exact hwf

theorem step_keeps_tape_wf {s t : State} (h : step s = .next t) (hwf : s.tape.wf = true) :
    t.tape.wf = true := by
  obtain ⟨b, -, -, he⟩ := step_effect h
  exact he.keeps_tape_wf hwf

theorem exec_of_step {s t : State} {i : Instr} (hi : nextInstr s = some i) (h : step s = .next t) :
    exec i s = .next t := by
  obtain ⟨b, hb, -, -, -, he⟩ := step_cases h
  obtain rfl : decodeByte b = i := by simpa [nextInstr, hb] using hi
  exact he

/-- A step that is no `,` on the cell `a` is a `+` on it, a `-` on it, or leaves it. -/
theorem step_cell_cases {s t : State} {i : Instr} {a : Nat} (hwf : s.tape.wf = true)
    (hi : nextInstr s = some i) (h : step s = .next t) (hinp : s.dp = a → i ≠ .inp) :
    (i = .inc ∧ s.dp = a ∧ t.cell a = incByte (s.cell a)) ∨
    (i = .dec ∧ s.dp = a ∧ t.cell a = decByte (s.cell a)) ∨
    (¬ (i = .inc ∧ s.dp = a) ∧ ¬ (i = .dec ∧ s.dp = a) ∧ t.cell a = s.cell a) := by
  have hexec := exec_of_step hi h
  by_cases hw : s.dp = a ∧ i.WritesTape
  · obtain ⟨rfl, rfl | rfl | rfl⟩ := hw
    · rw [exec_inc] at hexec
      exact .inl ⟨rfl, rfl, modifyCur_cell hwf hexec⟩
    · rw [exec_dec] at hexec
      exact .inr (.inl ⟨rfl, rfl, modifyCur_cell hwf hexec⟩)
    · exact absurd rfl (hinp rfl)
  · have hcell := (step_cell_eq_or_writes a hi h).resolve_right hw
    exact .inr (.inr ⟨fun ⟨hinc, hdp⟩ => hw ⟨hdp, .inl hinc⟩,
      fun ⟨hdec, hdp⟩ => hw ⟨hdp, .inr (.inl hdec)⟩, hcell⟩)

theorem executedAt_cons (i : Instr) (a : Nat) (e : Event) (es : List Event) :
    executedAt i a (e :: es) = executedAt i a es + if e.instr = i ∧ e.dp = a then 1 else 0 := by
  simp [executedAt, List.countP_cons]

/-- Settles O48: each step of the run moves the cell by what it adds to the counts, modulo 256. -/
theorem cellHoldsIncsLessDecsModulo256 : Obligations.CellHoldsIncsLessDecsModulo256 := by
  intro s t es a hwf htrace hinp
  rw [executedAt_eq_zero_iff] at hinp
  induction htrace with
  | nil s =>
    have hlt := cell_toNat_lt (s.cell a)
    simp only [executedAt, List.countP_nil]
    omega
  | @cons s u t i es hi hs ht ih =>
    obtain ⟨hnow, hlater⟩ := List.forall_mem_cons.mp hinp
    rw [ih (step_keeps_tape_wf hs hwf) hlater, executedAt_cons, executedAt_cons]
    obtain ⟨rfl, hdp, hu⟩ | ⟨rfl, hdp, hu⟩ | ⟨hinc, hdec, hu⟩ := step_cell_cases hwf hi hs hnow
    · simp only [hu, incByte_toNat, hdp, and_self, if_true, reduceCtorEq, false_and, if_false]
      omega
    · simp only [hu, decByte_toNat, hdp, and_self, if_true, reduceCtorEq, false_and, if_false]
      omega
    · simp only [hu, if_neg hinc, if_neg hdec, Nat.add_zero]

/-! The zero test of the brackets (R103, R120). -/

theorem cell_toNat_eq_zero_iff {v : Cell} : v.toNat = 0 ↔ v = 0#8 := BitVec.toNat_inj (y := 0#8)

/-- The two brackets as one: each falls through or, with the cell on the other side of the zero test,
jumps past the match its scan found or raises MalformedProgram. -/
theorem exec_bracket_cases {s t : State} {i : Instr} (hi : i = .jz ∨ i = .jnz)
    (h : exec i s = .next t) :
    (¬ (i = .jz ↔ (s.cell s.dp).toNat = 0) ∧ t = advance s) ∨
    ((i = .jz ↔ (s.cell s.dp).toNat = 0) ∧
      ((∃ m, (if i = .jz then fwdMatch s.prog s.ip else bwdMatch s.prog s.ip) = some m ∧
          t = s.setIp (m + 1)) ∨
       ((if i = .jz then fwdMatch s.prog s.ip else bwdMatch s.prog s.ip) = none ∧
          t = s.setFault .malformedProgram))) := by
  rw [cell_toNat_eq_zero_iff]
  obtain rfl | rfl := hi
  · simpa only [if_true, true_iff, and_or_left] using (execJz_cases h).2
  · simpa only [reduceCtorEq, if_false, false_iff, not_not, and_or_left] using (execJnz_cases h).2

/-- Settles O26: the three outcomes of a bracket, each with the side of the zero test it needs. -/
theorem bracketsTestCurrentCellForZero : Obligations.BracketsTestCurrentCellForZero := by
  intro s t i hi h
  obtain ⟨hnot, rfl⟩ | ⟨htaken, ⟨m, hm, rfl⟩ | ⟨hm, rfl⟩⟩ := exec_bracket_cases hi h
  · exact ⟨fun _ => rfl, rfl, rfl, rfl, fun _ => ⟨rfl, rfl⟩, fun htaken => absurd htaken hnot⟩
  · exact ⟨fun _ => rfl, rfl, rfl, rfl, fun hfalls => absurd (htaken.symm.trans hfalls) iff_not_self,
      fun _ => .inl ⟨m, hm, rfl, rfl⟩⟩
  · exact ⟨fun _ => rfl, rfl, rfl, rfl, fun hfalls => absurd (htaken.symm.trans hfalls) iff_not_self,
      fun _ => .inr ⟨hm, rfl⟩⟩

end Sys2Proof.Machine
end

section
/-! PROOFS. Input and output (spec 42_io.md): what `.` appends and when it is refused (R110, R9), what
`,` writes while input remains and after its end (R111), and the law of the cursor over a run (R113). -/

namespace Sys2Proof.Machine

theorem exec_out (s : State) : exec .out s = execOut s := rfl

theorem exec_inp (s : State) : exec .inp s = execIn s := rfl

/-! One execution of `.` (R110, R112). -/

/-- Settles O20: with room in OUT, `.` completes, and it writes OUT and IP only. -/
theorem outAppendsCurrentCell : Obligations.OutAppendsCurrentCell := by
  intro s hd hroom
  have happends : exec .out s = .next (advance (s.setOut (s.out ++ [s.cell s.dp]))) :=
    (exec_out s).trans (execOut_ok hd hroom)
  exact ⟨_, happends, by simp [SameTape, SameParams]⟩

theorem outAppend_full {s : State} (v : IoByte) (hfull : ¬ s.OutRoom) :
    outAppend v s = .error .outputFull := if_neg hfull

theorem execOut_full {s : State} (hd : s.dp < Config.tapeLen) (hfull : ¬ s.OutRoom) :
    execOut s = .refused .outputFull := by
  rw [execOut, withCur_ok _ hd, outAppend_full _ hfull]

/-- Settles O21: an OUT of exactly OUT_CAP bytes has no room for one more. -/
theorem outRefusedWhenOutputFull : Obligations.OutRefusedWhenOutputFull := by
  intro s c hd hcap hlen
  have hfull : ¬ s.OutRoom := by simp [State.OutRoom, hcap, hlen]
  exact (exec_out s).trans (execOut_full hd hfull)

/-! One execution of `,` (R111). -/

theorem exists_execIn_next {s : State} (hd : s.dp < Config.tapeLen) : ∃ t, execIn s = .next t := by
  obtain hi | hi := Nat.lt_or_ge s.ic s.input.length
  · exact ⟨_, execIn_takes hd hi⟩
  · exact ⟨_, execIn_ends hd hi⟩

/-- Both sources of the mux (R114) in one: past its end, INPUT reads as 0. -/
theorem execIn_cell {s t : State} (hwf : s.tape.wf = true) (h : execIn s = .next t) :
    t.cell s.dp = s.input.getD s.ic 0#8 := by
  obtain ⟨-, ⟨-, rfl⟩ | ⟨hi, rfl⟩⟩ := execIn_cases h
  · exact Memory.read_write_same s.dp _ hwf
  · rw [List.getD_eq_default _ _ hi]
    exact Memory.read_write_same s.dp _ hwf

theorem execIn_ic {s t : State} (h : execIn s = .next t) :
    t.ic = if s.ic < s.input.length then s.ic + 1 else s.ic := by
  obtain ⟨-, ⟨hi, rfl⟩ | ⟨hi, rfl⟩⟩ := execIn_cases h
  · exact (if_pos hi).symm
  · exact (if_neg hi.not_gt).symm

/-- The frame of `,`: only the current cell, IC and IP are written. -/
theorem execIn_frame {s t : State} (h : execIn s = .next t) :
    (∀ a, a ≠ s.dp → t.cell a = s.cell a) ∧ t.ip = s.ip + 1 ∧
      t.dp = s.dp ∧ t.out = s.out ∧ t.fault = s.fault ∧ SameParams s t := by
  obtain ⟨-, ⟨-, rfl⟩ | ⟨-, rfl⟩⟩ := execIn_cases h
  all_goals exact ⟨fun a ha => Memory.read_write_other s.tape _ ha, by simp [SameParams]⟩

/-- Settles O22: the two sides of the end of INPUT are the two branches of IC and of the read of
INPUT at IC. -/
theorem inReadsNextByteOrZero : Obligations.InReadsNextByteOrZero := by
  intro s hd hwf
  obtain ⟨t, ht⟩ := exists_execIn_next hd
  refine ⟨t, (exec_inp s).trans ht, fun hi => ⟨?_, ?_⟩, fun hi => ⟨?_, ?_⟩, execIn_frame ht⟩
  · rw [execIn_cell hwf ht, List.getD_eq_getElem _ _ hi]
  · rw [execIn_ic ht, if_pos hi]
  · rw [execIn_cell hwf ht, List.getD_eq_default _ _ hi]
  · rw [execIn_ic ht, if_neg hi.not_gt]

/-! The cursor over a run (R113). -/

/-- A `,` moves the cursor by 1, up to the end of INPUT; nothing else moves it. -/
theorem step_ic {s t : State} {i : Instr} (hle : s.ic ≤ s.input.length)
    (hi : nextInstr s = some i) (h : step s = .next t) :
    t.ic = min (s.ic + if i = .inp then 1 else 0) s.input.length := by
  by_cases hinp : i = .inp
  · subst hinp
    rw [execIn_ic (exec_of_step hi h), if_pos rfl]
    split <;> omega
  · obtain ⟨b, hb, -, he⟩ := step_effect h
    have hic : t.ic = s.ic := he.ic_cases.resolve_right fun ⟨hinp', _⟩ =>
      hinp (by simpa [nextInstr, hb, hinp'] using hi.symm)
    rw [hic, if_neg hinp, Nat.add_zero, min_eq_left hle]

/-- What every step keeps, a run keeps. -/
theorem Trace.keeps {P : State → Prop} (hstep : ∀ {s t}, step s = .next t → P s → P t)
    {s t : State} {es : List Event} (h : Trace s es t) (hs : P s) : P t := by
  induction h with
  | nil s => exact hs
  | cons _ hu _ ih => exact ih (hstep hu hs)

/-- The cursor law from any state: IC goes up by the number of executed `,`, up to the end of INPUT. -/
theorem Trace.ic_eq {s t : State} {es : List Event} (h : Trace s es t)
    (hle : s.ic ≤ s.input.length) : t.ic = min (s.ic + executed .inp es) s.input.length := by
  induction h with
  | nil s => exact (min_eq_left hle).symm
  | @cons s u t i es hi hs ht ih =>
    have hu := step_ic hle hi hs
    obtain ⟨-, hinput, -⟩ := step_keeps_parameters hs
    have hcount : executed .inp (⟨i, s.dp⟩ :: es) = executed .inp es + if i = .inp then 1 else 0 :=
      executed_cons .inp ⟨i, s.dp⟩ es
    rw [hinput] at ih
    rw [ih (by omega), hcount, hu]
    omega

/-- Settles O50: INPUT stays over the run, so the cursor law places IC in the run's own INPUT, and a
read at `min(k, INPUT_LEN)` or at `k` finds the same. -/
theorem cursorCountsExecutedInputs : Obligations.CursorCountsExecutedInputs := by
  intro prog input caps u es htrace
  have hic : u.ic = min (executed .inp es) input.length := by
    simpa using htrace.ic_eq (Nat.zero_le _)
  have hinput : u.input = input :=
    htrace.keeps (P := fun v => v.input = input) (fun h hs => by
      obtain ⟨-, hkept, -⟩ := step_keeps_parameters h
      exact hkept.trans hs) rfl
  have hwf : u.tape.wf = true :=
    htrace.keeps (P := fun v => v.tape.wf = true) step_keeps_tape_wf rfl
  refine ⟨hic, fun t hi ht => ?_⟩
  rw [execIn_cell hwf (exec_of_step hi ht), hinput, hic]
  obtain hk | hk := Nat.le_total (executed .inp es) input.length
  · rw [min_eq_left hk]
  · rw [min_eq_right hk, List.getD_eq_default _ _ le_rfl, List.getD_eq_default _ _ hk]

end Sys2Proof.Machine
end

section
/-! PROOFS. The jumps (spec 43_jumps.md): each scan is a search, in its own order, for the first position
at which the piece of program it has passed has the right excess of brackets (R123, R125), what `[` and
`]` do to IP (R121, R124), and when a step records MALFORMED_PROGRAM (R141). -/

namespace Sys2Proof.Machine

/-! DEPTH counts the brackets passed. -/

@[simp] theorem excess_append (l l' : List Byte) : excess (l ++ l') = excess l + excess l' := by
  simp only [excess, List.count_append]
  omega

theorem excess_cons (b : Byte) (l : List Byte) : excess (b :: l) = excess [b] + excess l :=
  excess_append [b] l

@[simp] theorem excess_jz : excess [Opcode.jz] = -1 := by decide

@[simp] theorem excess_jnz : excess [Opcode.jnz] = 1 := by decide

theorem excess_nonBracket {b : Byte} (hb : NonBracket b) : excess [b] = 0 := by
  simp [excess, hb.1, hb.2]

/-- A pass of the forward scan takes from DEPTH what its byte adds to the excess of `]`. -/
theorem fwdDepth_eq_sub_excess (b : Byte) {depth : Nat} (hd : 0 < depth) :
    (fwdDepth b depth : Int) = depth - excess [b] := by
  obtain ⟨rfl, h⟩ | ⟨rfl, h⟩ | ⟨hz, hn, h⟩ := fwdDepth_cases b depth
  · rw [h, excess_jz]; omega
  · rw [h, excess_jnz]; omega
  · rw [h, excess_nonBracket ⟨hz, hn⟩, sub_zero]

/-- A pass of the backward scan adds to DEPTH what its byte adds to the excess of `]`. -/
theorem bwdDepth_eq_add_excess (b : Byte) {depth : Nat} (hd : 0 < depth) :
    (bwdDepth b depth : Int) = depth + excess [b] := by
  obtain ⟨rfl, h⟩ | ⟨rfl, h⟩ | ⟨hz, hn, h⟩ := bwdDepth_cases b depth
  · rw [h, excess_jnz]; omega
  · rw [h, excess_jz]; omega
  · rw [h, excess_nonBracket ⟨hz, hn⟩, add_zero]

/-! The forward scan (R123). -/

/-- The forward loop searches upwards for the first position up to which the bytes ahead hold `depth`
more `]` than `[`. -/
theorem fwdScan_eq_find? (l : List Byte) (sp : Nat) {depth : Nat} (hd : 0 < depth) :
    fwdScan l sp depth =
      (List.range' sp l.length).find? (fun m => excess (l.take (m + 1 - sp)) = depth) := by
  induction l generalizing sp depth with
  | nil => rfl
  | cons b rest ih =>
    have hdepth := fwdDepth_eq_sub_excess b hd
    have hfirst : excess ((b :: rest).take (sp + 1 - sp)) = excess [b] := by
      rw [Nat.add_sub_cancel_left, List.take_succ_cons, List.take_zero]
    rw [fwdScan_cons, List.length_cons, List.range'_succ, List.find?_cons, hfirst]
    by_cases hstop : fwdDepth b depth = 0
    · have hfound : excess [b] = depth := by omega
      simp [hstop, hfound]
    · have hpass : excess [b] ≠ depth := by omega
      simp only [hstop, hpass, if_false, decide_false]
      rw [ih (sp + 1) (Nat.pos_of_ne_zero hstop)]
      refine List.find?_congr fun m hm => ?_
      have hle : sp + 1 ≤ m := (List.mem_range'_1.mp hm).1
      have htake : (b :: rest).take (m + 1 - sp) = b :: rest.take (m + 1 - (sp + 1)) := by
        rw [show m + 1 - sp = m + 1 - (sp + 1) + 1 by omega, List.take_succ_cons]
      rw [htake, excess_cons, hdepth, decide_eq_decide]
      omega

theorem fwdMatch_eq_find? (prog : List Byte) (p : Nat) :
    fwdMatch prog p = (List.range' (p + 1) (prog.length - (p + 1))).find?
      (fun m => excess (progPiece prog (p + 1) m) = 1) := by
  simp only [fwdMatch, fwdScan_eq_find? _ _ Nat.one_pos, List.length_drop, progPiece, List.drop_take,
    Nat.cast_one]

/-- Settles O28: the search runs upwards over the positions after `p`, so what it finds is the least. -/
theorem fwdMatchIsLeastBalancingClose : Obligations.FwdMatchIsLeastBalancingClose := by
  intro prog p
  have hahead : ∀ m, m ∈ List.range' (p + 1) (prog.length - (p + 1)) ↔ p < m ∧ m < prog.length :=
    fun m => by rw [List.mem_range'_1]; omega
  rw [fwdMatch_eq_find?]
  refine ⟨fun m => ?_, ?_⟩
  · simp only [List.find?_range'_eq_some, hahead, Nat.add_one_le_iff, decide_eq_true_eq,
      Bool.not_eq_true', decide_eq_false_iff_not, ne_eq, and_assoc, and_left_comm]
  · simp only [List.find?_eq_none, hahead, decide_eq_true_eq, and_imp, ne_eq]

/-! The backward scan (R125). -/

/-- The first hit of a search downwards from `n` is the greatest one below `n`. -/
theorem find?_reverse_range_eq_some {n m : Nat} {q : Nat → Bool} :
    (List.range n).reverse.find? q = some m ↔
      m < n ∧ q m = true ∧ ∀ k, m < k → k < n → q k = false := by
  induction n with
  | zero => simp
  | succ n ih =>
    rw [List.range_succ, List.reverse_concat, List.find?_cons]
    -- the search looks at `n` first; when it goes on, `n` is no hit above any later one
    cases hq : q n with
    | true => grind
    | false => grind

/-- The backward loop searches downwards for the first position from which the bytes up to `sp` hold
`depth` more `[` than `]`. -/
theorem bwdScan_eq_find? {prog : List Byte} {sp depth : Nat} (hsp : sp ≤ prog.length)
    (hd : 0 < depth) :
    bwdScan prog sp depth =
      (List.range sp).reverse.find? (fun m => excess ((prog.take sp).drop m) = -depth) := by
  induction sp generalizing depth with
  | zero => rfl
  | succ sp ih =>
    have hread : progRead prog sp = some prog[sp] := List.getElem?_eq_getElem hsp
    have hdepth := bwdDepth_eq_add_excess prog[sp] hd
    have hpiece (m : Nat) (hm : m ≤ sp) :
        (prog.take (sp + 1)).drop m = (prog.take sp).drop m ++ [prog[sp]] := by
      have hlen : m ≤ (prog.take sp).length := by rw [List.length_take]; omega
      rw [← List.take_concat_get' prog sp hsp, List.drop_append_of_le_length hlen]
    have hfirst : excess ((prog.take (sp + 1)).drop sp) = excess [prog[sp]] := by
      rw [hpiece sp le_rfl, List.drop_take_self, List.nil_append]
    rw [bwdScan_succ, hread, List.range_succ, List.reverse_concat, List.find?_cons, hfirst]
    by_cases hstop : bwdDepth prog[sp] depth = 0
    · have hfound : excess [prog[sp]] = -depth := by omega
      simp [hstop, hfound]
    · have hpass : excess [prog[sp]] ≠ -depth := by omega
      simp only [hstop, hpass, if_false, decide_false]
      rw [ih (by omega) (Nat.pos_of_ne_zero hstop)]
      refine List.find?_congr fun m hm => ?_
      have hlt : m < sp := List.mem_range.mp (List.mem_reverse.mp hm)
      rw [hpiece m hlt.le, excess_append, hdepth, decide_eq_decide]
      omega

theorem bwdMatch_eq_find? {prog : List Byte} {p : Nat} (hp : p < prog.length) :
    bwdMatch prog p = (List.range p).reverse.find?
      (fun m => excess (progPiece prog m (p - 1)) = -1) := by
  rw [bwdMatch, bwdScan_eq_find? hp.le Nat.one_pos]
  refine List.find?_congr fun m hm => ?_
  have hlt : m < p := List.mem_range.mp (List.mem_reverse.mp hm)
  rw [progPiece, Nat.sub_one_add_one (by omega), Nat.cast_one]

/-- Settles O29: the search runs downwards over the positions before `p`, so what it finds is the
greatest. -/
theorem bwdMatchIsGreatestBalancingOpen : Obligations.BwdMatchIsGreatestBalancingOpen := by
  intro prog p hp
  rw [bwdMatch_eq_find? hp]
  refine ⟨fun m => ?_, ?_⟩
  · rw [find?_reverse_range_eq_some]
    simp only [decide_eq_true_eq, decide_eq_false_iff_not, ne_eq]
  · simp only [List.find?_eq_none, List.mem_reverse, List.mem_range, decide_eq_true_eq, ne_eq]

/-! One execution of a bracket (R121, R124). -/

/-- The frame of a write to IP, by the advance to the next instruction or by a jump. -/
theorem setIp_frame (s : State) (p : Nat) :
    (s.setIp p).ip = p ∧ SameTape s (s.setIp p) ∧ (s.setIp p).dp = s.dp ∧ (s.setIp p).ic = s.ic ∧
      (s.setIp p).out = s.out ∧ (s.setIp p).fault = s.fault ∧ SameParams s (s.setIp p) := by
  simp [SameTape, SameParams]

/-- Settles O23: the two effects of `[` that write IP. -/
theorem jzFallsThroughOrJumpsForward : Obligations.JzFallsThroughOrJumpsForward := by
  intro s hd
  refine ⟨fun hz => ?_, fun hz m hm => ?_⟩
  · exact ⟨_, exec_next_iff_effect.mpr (.jzFalls rfl hd hz), setIp_frame s (s.ip + 1)⟩
  · exact ⟨_, exec_next_iff_effect.mpr (.jzJumps rfl hd hz m hm), setIp_frame s (m + 1)⟩

/-- Settles O24: the two effects of `]` that write IP. -/
theorem jnzFallsThroughOrJumpsBack : Obligations.JnzFallsThroughOrJumpsBack := by
  intro s hd
  refine ⟨fun hz => ?_, fun hz m hm => ?_⟩
  · exact ⟨_, exec_next_iff_effect.mpr (.jnzFalls rfl hd hz), setIp_frame s (s.ip + 1)⟩
  · exact ⟨_, exec_next_iff_effect.mpr (.jnzJumps rfl hd hz m hm), setIp_frame s (m + 1)⟩

/-! The failed scan (R141). -/

/-- Only a taken bracket whose scan found nothing records MALFORMED_PROGRAM anew. -/
theorem Effect.failed_scan_of_malformed {s t : State} {b : Byte} (h : Effect s b t)
    (hs : s.fault ≠ .malformedProgram) (ht : t.fault = .malformedProgram) :
    (b = Opcode.jz ∧ s.cell s.dp = 0#8 ∧ fwdMatch s.prog s.ip = none) ∨
    (b = Opcode.jnz ∧ s.cell s.dp ≠ 0#8 ∧ bwdMatch s.prog s.ip = none) := by
  cases h with
  | jzRaises hb hd hz hm => exact .inl ⟨hb, hz, hm⟩
  | jnzRaises hb hd hz hm => exact .inr ⟨hb, hz, hm⟩
  | rightRaises | leftRaises => exact FaultReg.noConfusion ht
  | _ => exact absurd ht hs

/-- `[` on a zero cell with no match ahead has no other effect. -/
theorem Effect.malformed_of_jz {s t : State} (h : Effect s Opcode.jz t)
    (hz : s.cell s.dp = 0#8) (hm : fwdMatch s.prog s.ip = none) : t.fault = .malformedProgram := by
  obtain ⟨-, ⟨hne, -⟩ | ⟨-, m, hsome, -⟩ | ⟨-, -, rfl⟩⟩ := execJz_cases h.exec_eq
  · exact absurd hz hne
  · exact absurd (hm.symm.trans hsome) nofun
  · rfl

/-- `]` on a non-zero cell with no match behind has no other effect. -/
theorem Effect.malformed_of_jnz {s t : State} (h : Effect s Opcode.jnz t)
    (hz : s.cell s.dp ≠ 0#8) (hm : bwdMatch s.prog s.ip = none) : t.fault = .malformedProgram := by
  obtain ⟨-, ⟨heq, -⟩ | ⟨-, m, hsome, -⟩ | ⟨-, -, rfl⟩⟩ := execJnz_cases h.exec_eq
  · exact absurd heq hz
  · exact absurd (hm.symm.trans hsome) nofun
  · rfl

/-- Settles O36: a step starts with no fault recorded, so a MALFORMED_PROGRAM after it is its own. -/
theorem malformedProgramRaisedExactlyByFailedScan :
    Obligations.MalformedProgramRaisedExactlyByFailedScan := by
  intro s t h
  obtain ⟨b, hb, hf, he⟩ := step_effect h
  rw [hb]
  simp only [Option.some.injEq]
  refine ⟨he.failed_scan_of_malformed (hf ▸ FaultReg.noConfusion), ?_⟩
  rintro (⟨rfl, hz, hm⟩ | ⟨rfl, hz, hm⟩)
  · exact he.malformed_of_jz hz hm
  · exact he.malformed_of_jnz hz hm

end Sys2Proof.Machine
end

section
/-! PROOFS. The NOP (spec 44_noop.md). -/

namespace Sys2Proof.Machine

theorem exec_nop (b : Byte) (s : State) : exec (.nop b) s = .next (advance s) := rfl

/-- Settles O27: the advance is the NOP's one write, and it goes to IP. -/
theorem nopOnlyAdvancesIp : Obligations.NopOnlyAdvancesIp :=
  fun s b => ⟨advance s, exec_nop b s, setIp_frame s (s.ip + 1)⟩

end Sys2Proof.Machine
end

section
/-! PROOFS. The finality of a fault (spec 60_exceptions.md, R144). -/

namespace Sys2Proof.Machine

/-- A step is enabled only with no fault recorded. -/
theorem step_ne_next_of_fault {s : State} (hfault : s.fault ≠ .noFault) (t : State) :
    step s ≠ .next t := by
  intro h
  obtain ⟨_, -, hnone, -⟩ := step_effect h
  exact hfault hnone

/-- The host's reset takes only the capacities from the state it is given. -/
theorem hostReset_eq_start (prog : List Byte) (input : List IoByte) (s : State) :
    hostReset prog input s = State.start prog input s.caps := rfl

/-- Settles O38: a step that has a next state had no fault recorded before it, and the host's reset
is the start state of a run. -/
theorem faultIsFinalUntilReset : Obligations.FaultIsFinalUntilReset := by
  intro s hfault
  refine ⟨step_ne_next_of_fault hfault, fun prog input => ?_⟩
  rw [hostReset_eq_start]
  exact ⟨State.start_fault .., rfl⟩

end Sys2Proof.Machine
end

section
/-! PROOFS. The independence of runs (spec 70_reset_and_hazards.md, R173). -/

namespace Sys2Proof.Machine

/-- Settles O2: both resets are the start state over the block's capacities, the one part of the
earlier state that a reset takes over. -/
theorem hostResetForgetsEarlierRun : Obligations.HostResetForgetsEarlierRun := by
  intro s s' prog input hcaps
  rw [hostReset_eq_start, hostReset_eq_start, hcaps]

end Sys2Proof.Machine
end

section
/-! PROOFS. The decoder and the encoder (spec 30_encoding.md R72 to R74): they are inverse on the
well-formed instructions, and a word placed at IP is what the next step runs. -/

namespace Sys2Proof

@[simp] theorem decode_cons (b : Byte) (rest : List Byte) :
    decode (b :: rest) = .ok (decodeByte b, rest) := rfl

theorem encode_append (i : Instr) (rest : List Byte) : encode i ++ rest = encodeByte i :: rest := rfl

theorem Instr.wf_nop_iff {b : Byte} : (Instr.nop b).wf = true ↔ b ∉ nopExcludes := by
  simp [Instr.wf]

@[simp] theorem decodeByte_eq_right_iff {b : Byte} : decodeByte b = .right ↔ b = Opcode.right :=
  ⟨fun h => by rw [← encodeByte_decodeByte b, h]; rfl, fun h => h ▸ decodeByte_right⟩

@[simp] theorem decodeByte_eq_left_iff {b : Byte} : decodeByte b = .left ↔ b = Opcode.left :=
  ⟨fun h => by rw [← encodeByte_decodeByte b, h]; rfl, fun h => h ▸ decodeByte_left⟩

/-- The eight named instructions have a byte of their own; a NOP's byte is none of these when it is
well formed. -/
theorem decodeByte_encodeByte {i : Instr} (h : i.wf = true) : decodeByte (encodeByte i) = i := by
  cases i with
  | nop b => exact decodeByte_nop (Instr.wf_nop_iff.mp h)
  | right => exact decodeByte_right
  | left => exact decodeByte_left
  | inc => exact decodeByte_inc
  | dec => exact decodeByte_dec
  | out => exact decodeByte_out
  | inp => exact decodeByte_inp
  | jz => exact decodeByte_jz
  | jnz => exact decodeByte_jnz

/-- Settles O7: decoding takes the one byte of the encoding, and that byte decodes to the instruction. -/
theorem decodeOfEncodeIsIdentity : Obligations.DecodeOfEncodeIsIdentity := by
  intro i rest h
  rw [encode_append, decode_cons, decodeByte_encodeByte h]

theorem wf_decodeByte (b : Byte) : (decodeByte b).wf = true := by
  rcases decodeByte_cases b with ⟨-, hi⟩ | ⟨-, hi⟩ | ⟨-, hi⟩ | ⟨-, hi⟩ | ⟨-, hi⟩ | ⟨-, hi⟩ |
    ⟨-, hi⟩ | ⟨-, hi⟩ | ⟨hb, hi⟩ <;> rw [hi]
  iterate 8 rfl
  exact Instr.wf_nop_iff.mpr hb

/-- Settles O8: the instruction is the decoded first byte. -/
theorem encodeOfDecodeIsIdentity : Obligations.EncodeOfDecodeIsIdentity := by
  refine ⟨fun bytes hne => ?_, rfl⟩
  cases bytes with
  | nil => exact absurd rfl hne
  | cons b rest =>
    exact ⟨_, rest, decode_cons b rest, wf_decodeByte b,
      by rw [encode_append, encodeByte_decodeByte]⟩

/-- Settles O6: the eight literals are the opcode constants, and the list is that of the NOP row. -/
theorem decodeClassifiesEveryByte : Obligations.DecodeClassifiesEveryByte :=
  ⟨decodeByte_right, decodeByte_left, decodeByte_inc, decodeByte_dec, decodeByte_out,
    decodeByte_inp, decodeByte_jz, decodeByte_jnz, fun _ hb => decodeByte_nop hb⟩

theorem decodeTableWord_word {w : Nat} (hw : w < 256) :
    decodeTableWord 8 w = some (decodeByte (BitVec.ofNat 8 w)) := by
  rw [decodeTableWord, tableByte_word hw]
  rfl

end Sys2Proof

namespace Sys2Proof.Machine

/-! A byte placed at IP (log entries 1 and 14). -/

theorem placeByte_getElem?_self (prog : List Byte) (p : Nat) (b : Byte) :
    (placeByte prog p b)[p]? = some b := by
  have hlen : (prog.take p ++ List.replicate (p - prog.length) 0#8).length = p := by
    simp only [List.length_append, List.length_take, List.length_replicate]
    omega
  rw [placeByte, List.getElem?_append_right hlen.le, hlen, Nat.sub_self, List.getElem?_cons_zero]

theorem placeByte_getElem?_of_ne {prog : List Byte} {p q : Nat} (b : Byte) (hne : q ≠ p)
    (hq : q < prog.length) : (placeByte prog p b)[q]? = prog[q]? := by
  rw [placeByte, List.append_assoc]
  obtain hlt | hgt := Nat.lt_or_gt_of_ne hne
  · rw [List.getElem?_append_left (by rw [List.length_take]; omega), List.getElem?_take_of_lt hlt]
  · -- `p` is inside the program, so nothing is filled in before the byte
    have hfill : p - prog.length = 0 := by omega
    have hskip : q - p = (q - (p + 1)) + 1 := by omega
    rw [hfill, List.replicate_zero, List.nil_append,
      List.getElem?_append_right (by rw [List.length_take]; omega), List.length_take,
      min_eq_left (by omega), hskip, List.getElem?_cons_succ, List.getElem?_drop]
    congr 1
    omega

@[simp] theorem withinCap_raiseCap (cap : Option Nat) (n : Nat) :
    withinCap (raiseCap cap n) n = true := by
  cases cap with
  | none => rfl
  | some c => simp [raiseCap]

/-- The placed byte runs next, whatever the state was. -/
theorem step_placeAtIp (s : State) (b : Byte) :
    step (placeAtIp s b) = exec (decodeByte b) (placeAtIp s b) :=
  stepRunsDecodedInstruction _ b ⟨withinCap_raiseCap .., withinCap_raiseCap ..⟩ rfl
    (placeByte_getElem?_self s.prog s.ip b)

theorem withFetchWord_word (s : State) {w : Nat} (hw : w < 256) :
    s.withFetchWord 8 w = placeAtIp s (BitVec.ofNat 8 w) := by
  rw [State.withFetchWord, tableByte_word hw]

/-- Settles O9: the word is one byte, placed where the fetch looks. -/
theorem tableWordRunsAtIp : Obligations.TableWordRunsAtIp := by
  intro s w hw
  rw [withFetchWord_word s hw]
  exact ⟨_, decodeTableWord_word hw, step_placeAtIp s _, rfl, rfl, rfl, rfl, rfl, rfl,
    fun p hne hp => placeByte_getElem?_of_ne _ hne hp⟩

end Sys2Proof.Machine
end

section
/-! PROOFS. What a step can write (spec 10_state.md, `written by`) and the two faults
(60_exceptions.md R140, R141, R143, R145): a fault is the step's only write, and the state it leaves
explains it. -/

namespace Sys2Proof.Machine

/-! Fault entry (R143). -/

theorem mem_faultingBytes_iff {b : Byte} : b ∈ faultingBytes ↔
    b = Opcode.right ∨ b = Opcode.left ∨ b = Opcode.jz ∨ b = Opcode.jnz := by
  simp [faultingBytes]

/-- A byte leaves FAULT as it was, or is one of the four that can fault (R142) and writes FAULT and
nothing else. -/
theorem Effect.fault_cases {s t : State} {b : Byte} (h : Effect s b t) :
    t.fault = s.fault ∨ (b ∈ faultingBytes ∧ t = s.setFault t.fault) := by
  cases h with
  | rightRaises hb | leftRaises hb | jzRaises hb | jnzRaises hb => exact .inr ⟨hb ▸ by decide, rfl⟩
  | _ => exact .inl rfl

/-- A step that leaves a fault recorded it, since a step is enabled only with none. -/
theorem step_of_fault {s t : State} (h : step s = .next t) (ht : t.fault ≠ .noFault) :
    (∃ b ∈ faultingBytes, s.prog[s.ip]? = some b) ∧ t = s.setFault t.fault := by
  obtain ⟨b, hb, hf, he⟩ := step_effect h
  obtain ⟨hmem, heq⟩ := he.fault_cases.resolve_left fun hkept => ht (hkept.trans hf)
  exact ⟨⟨b, hmem, hb⟩, heq⟩

/-- The frame of a write to FAULT. -/
theorem setFault_frame (s : State) (x : FaultReg) :
    (s.setFault x).tape = s.tape ∧ (s.setFault x).dp = s.dp ∧ (s.setFault x).ip = s.ip ∧
      (s.setFault x).ic = s.ic ∧ (s.setFault x).out = s.out ∧ SameParams s (s.setFault x) := by
  simp [SameParams]

/-- Settles O37: the state after a faulting step is the one before it with FAULT written. -/
theorem faultingStepWritesOnlyFault : Obligations.FaultingStepWritesOnlyFault := by
  intro s t h ht
  obtain ⟨-, heq⟩ := step_of_fault h ht
  rw [heq]
  exact setFault_frame s t.fault

/-- Settles O39: a fault gives STATUS = FAULTED, where OUT is read, and a faulting step leaves OUT. -/
theorem outputBeforeFaultIsKept : Obligations.OutputBeforeFaultIsKept := by
  intro s t h ht
  have hstatus : hostStatus t = .faulted := status_faulted_iff.mpr ht
  obtain ⟨-, -, -, -, hout, -⟩ := faultingStepWritesOnlyFault s t h ht
  exact ⟨hstatus, by rw [← hout]; exact hostOut_of_ended (hstatus ▸ Status.noConfusion)⟩

/-! OUT_OF_BOUNDS (R140). -/

/-- Only a move off an end of the tape records OUT_OF_BOUNDS anew. -/
theorem Effect.tape_end_of_outOfBounds {s t : State} {b : Byte} (h : Effect s b t)
    (hs : s.fault ≠ .outOfBounds) (ht : t.fault = .outOfBounds) :
    (b = Opcode.right ∧ s.dp = Config.tapeLen - 1) ∨ (b = Opcode.left ∧ s.dp = 0) := by
  cases h with
  | rightRaises hb hd => exact .inl ⟨hb, hd⟩
  | leftRaises hb hd => exact .inr ⟨hb, hd⟩
  | jzRaises | jnzRaises => exact FaultReg.noConfusion ht
  | _ => exact absurd ht hs

/-- `>` at the last cell has no other effect. -/
theorem Effect.outOfBounds_of_right {s t : State} (h : Effect s Opcode.right t)
    (hd : s.dp = Config.tapeLen - 1) : t.fault = .outOfBounds := by
  obtain ⟨-, rfl⟩ | ⟨hne, -⟩ := execRight_cases h.exec_eq
  · rfl
  · exact absurd hd hne

/-- `<` at cell 0 has no other effect. -/
theorem Effect.outOfBounds_of_left {s t : State} (h : Effect s Opcode.left t) (hd : s.dp = 0) :
    t.fault = .outOfBounds := by
  obtain ⟨-, rfl⟩ | ⟨hne, -⟩ := execLeft_cases h.exec_eq
  · rfl
  · exact absurd hd hne

/-- Settles O35: a step starts with no fault recorded, so an OUT_OF_BOUNDS after it is its own. -/
theorem outOfBoundsRaisedExactlyAtTapeEnds : Obligations.OutOfBoundsRaisedExactlyAtTapeEnds := by
  intro s t h
  obtain ⟨b, hb, hf, he⟩ := step_effect h
  rw [hb]
  simp only [Option.some.injEq]
  refine ⟨he.tape_end_of_outOfBounds (hf ▸ FaultReg.noConfusion), ?_⟩
  rintro (⟨rfl, hd⟩ | ⟨rfl, hd⟩)
  · exact he.outOfBounds_of_right hd
  · exact he.outOfBounds_of_left hd

theorem faultExplained_of_noFault {s : State} (h : s.fault = .noFault) : s.FaultExplained :=
  ⟨fun hx => absurd (h.symm.trans hx) FaultReg.noConfusion,
    fun hx => absurd (h.symm.trans hx) FaultReg.noConfusion⟩

/-- Settles O53: the conditions of both faults are read from PROG, IP, the tape and DP, and a faulting
step writes none of them. -/
theorem recordedFaultIsExplainedByState : Obligations.RecordedFaultIsExplainedByState := by
  intro s t h
  have hbounds := (outOfBoundsRaisedExactlyAtTapeEnds s t h).mp
  have hscan := (malformedProgramRaisedExactlyByFailedScan s t h).mp
  by_cases ht : t.fault = .noFault
  · exact faultExplained_of_noFault ht
  · obtain ⟨-, heq⟩ := step_of_fault h ht
    rw [heq]
    exact ⟨hbounds, hscan⟩

/-! The faults of one execution. -/

/-- Settles O16: the two effects that record OUT_OF_BOUNDS. -/
theorem movesOffTapeRaiseOutOfBounds : Obligations.MovesOffTapeRaiseOutOfBounds := by
  intro s i hend
  have hexec : exec i s = .next (s.setFault .outOfBounds) := by
    obtain ⟨rfl, hd⟩ | ⟨rfl, hd⟩ := hend
    · exact execRight_raises hd
    · exact execLeft_raises hd
  exact ⟨_, hexec, by simp [SameTape, SameParams]⟩

/-- Settles O25: the two effects that record MALFORMED_PROGRAM. -/
theorem takenBracketWithoutMatchRaises : Obligations.TakenBracketWithoutMatchRaises := by
  intro s i hd hfails
  have hexec : exec i s = .next (s.setFault .malformedProgram) := by
    obtain ⟨rfl, hz, hm⟩ | ⟨rfl, hz, hm⟩ := hfails
    · exact exec_next_iff_effect.mpr (.jzRaises rfl hd hz hm)
    · exact exec_next_iff_effect.mpr (.jnzRaises rfl hd hz hm)
  exact ⟨_, hexec, by simp [SameTape, SameParams]⟩

/-! The taken jump (R126). -/

/-- What a taken jump leaves in IP and FAULT is a function of the target and of what they held. -/
theorem takeJump_ip_fault {target : Option Nat} {s s' t t' : State} (hip : s'.ip = s.ip)
    (hfault : s'.fault = s.fault) (h : takeJump target s = .next t)
    (h' : takeJump target s' = .next t') : t'.ip = t.ip ∧ t'.fault = t.fault := by
  obtain ⟨m, rfl, rfl⟩ | ⟨rfl, rfl⟩ := takeJump_next h
  · obtain rfl : s'.setIp (m + 1) = t' := Host.Outcome.next.inj h'
    exact ⟨rfl, hfault⟩
  · obtain rfl := raise_next h'
    exact ⟨hip, rfl⟩

theorem takeJump_of_execJz {s t : State} (hz : s.cell s.dp = 0#8) (h : execJz s = .next t) :
    takeJump (fwdMatch s.prog s.ip) s = .next t := by
  obtain ⟨hd, -⟩ := execJz_cases h
  rwa [execJz_taken hd hz] at h

theorem takeJump_of_execJnz {s t : State} (hz : s.cell s.dp ≠ 0#8) (h : execJnz s = .next t) :
    takeJump (bwdMatch s.prog s.ip) s = .next t := by
  obtain ⟨hd, -⟩ := execJnz_cases h
  rwa [execJnz_taken hd hz] at h

/-- Settles O34: both states take the jump to the same target. -/
theorem jumpOutcomeDependsOnlyOnProgramAndIp : Obligations.JumpOutcomeDependsOnlyOnProgramAndIp := by
  rintro s s' t t' i hprog hip hfault (⟨rfl, hz, hz'⟩ | ⟨rfl, hz, hz'⟩) h h'
  · have hjump' := takeJump_of_execJz hz' h'
    rw [hprog, hip] at hjump'
    exact takeJump_ip_fault hip hfault (takeJump_of_execJz hz h) hjump'
  · have hjump' := takeJump_of_execJnz hz' h'
    rw [hprog, hip] at hjump'
    exact takeJump_ip_fault hip hfault (takeJump_of_execJnz hz h) hjump'

/-! DP: its writers (R21) and its law over a run (R92). -/

/-- `>` and `<` move DP or raise OutOfBounds, and no other byte writes DP. -/
theorem Effect.dp_cases {s t : State} {b : Byte} (h : Effect s b t) :
    (b = Opcode.right ∧ (t.fault = .outOfBounds ∨ t.dp = s.dp + 1)) ∨
    (b = Opcode.left ∧ (t.fault = .outOfBounds ∨ t.dp + 1 = s.dp)) ∨
    (b ≠ Opcode.right ∧ b ≠ Opcode.left ∧ t.dp = s.dp) := by
  cases h with
  | rightRaises hb => exact .inl ⟨hb, .inl rfl⟩
  | rightMoves hb => exact .inl ⟨hb, .inr rfl⟩
  | leftRaises hb => exact .inr (.inl ⟨hb, .inl rfl⟩)
  | leftMoves hb hd => exact .inr (.inl ⟨hb, .inr (Nat.sub_one_add_one hd)⟩)
  | nop hb => exact .inr (.inr ⟨fun h => hb (h ▸ by decide), fun h => hb (h ▸ by decide), rfl⟩)
  | inc hb | dec hb | out hb | inTakes hb | inEnds hb | jzFalls hb | jzJumps hb | jzRaises hb
  | jnzFalls hb | jnzJumps hb | jnzRaises hb =>
    exact .inr (.inr ⟨hb ▸ by decide, hb ▸ by decide, rfl⟩)

/-- Only a byte that decodes to a writer of the tape is one of its bytes. -/
theorem tape_writing_byte {b : Byte} (h : (decodeByte b).WritesTape) :
    b = Opcode.inc ∨ b = Opcode.dec ∨ b = Opcode.inp := by
  rw [← encodeByte_decodeByte b]
  obtain hi | hi | hi := h <;> rw [hi]
  · exact .inl rfl
  · exact .inr (.inl rfl)
  · exact .inr (.inr rfl)

/-- Settles O41: for each piece of state, the byte whose effect differs in it. -/
theorem onlyListedInstructionsWriteEachState : Obligations.OnlyListedInstructionsWriteEachState := by
  intro s t h
  obtain ⟨b, hb, -, he⟩ := step_effect h
  refine ⟨b, hb, fun hdp => ?_, fun hic => ?_, fun hout => ?_, fun a ha => ?_, fun hfault => ?_⟩
  · obtain ⟨hright, -⟩ | ⟨hleft, -⟩ | ⟨-, -, hkept⟩ := he.dp_cases
    · exact .inl hright
    · exact .inr hleft
    · exact absurd hkept hdp
  · obtain ⟨hinp, -⟩ := he.ic_cases.resolve_left hic
    exact hinp
  · obtain ⟨hbyte, -⟩ := he.out_cases.resolve_left fun ⟨_, hkept⟩ => hout hkept
    exact hbyte
  · obtain ⟨hdp, hw⟩ := (he.cell_eq_or_writes a).resolve_left ha
    exact ⟨hdp.symm, tape_writing_byte hw⟩
  · obtain ⟨hmem, -⟩ := he.fault_cases.resolve_left hfault
    exact mem_faultingBytes_iff.mp hmem

/-- A run that ends without a fault starts without one: after a fault no step is enabled. -/
theorem Trace.start_noFault {s t : State} {es : List Event} (h : Trace s es t)
    (ht : t.fault = .noFault) : s.fault = .noFault := by
  cases h with
  | nil => exact ht
  | cons _ hs _ => exact by_contra fun hfault => step_ne_next_of_fault hfault _ hs

/-- What a step without a fault adds to DP. -/
theorem step_dp {s t : State} {i : Instr} (hi : nextInstr s = some i) (h : step s = .next t)
    (ht : t.fault = .noFault) :
    (t.dp : Int) = s.dp + (if i = .right then 1 else 0) - (if i = .left then 1 else 0) := by
  obtain ⟨b, hb, -, he⟩ := step_effect h
  obtain rfl : decodeByte b = i := by simpa [nextInstr, hb] using hi
  have hno : t.fault ≠ .outOfBounds := ht ▸ FaultReg.noConfusion
  obtain ⟨rfl, hdp⟩ | ⟨rfl, hdp⟩ | ⟨hright, hleft, hdp⟩ := he.dp_cases
  · simp [hdp.resolve_left hno]
  · simp [← hdp.resolve_left hno]
  · simp [hright, hleft, hdp]

/-- Settles O47: each step of the run moves DP by what it adds to the counts, by induction over the
run. -/
theorem pointerMovesByRightsLessLefts : Obligations.PointerMovesByRightsLessLefts := by
  intro s t es htrace ht
  induction htrace with
  | nil s => simp [executed]
  | @cons s u t i es hi hs htail ih =>
    have hu := step_dp hi hs (htail.start_noFault ht)
    rw [ih ht, hu, executed_cons, executed_cons]
    push_cast
    ring

end Sys2Proof.Machine
end

section
/-! PROOFS. The invariants (spec 10_state.md R34): they hold at the start of every run and every step
keeps them, so they hold of every reachable state. -/

namespace Sys2Proof.Machine

/-! Every step keeps them. -/

theorem Effect.keeps_dp_on_tape {s t : State} {b : Byte} (h : Effect s b t)
    (hs : s.dp < Config.tapeLen) : t.dp < Config.tapeLen := by
  cases h with
  | rightMoves hb hd =>
    rw [advance_dp, State.setDp_dp]
    omega
  | leftMoves hb hd =>
    rw [advance_dp, State.setDp_dp]
    omega
  | _ => exact hs

theorem step_keeps_dp_on_tape {s t : State} (h : step s = .next t) (hs : s.dp < Config.tapeLen) :
    t.dp < Config.tapeLen := by
  obtain ⟨b, -, -, he⟩ := step_effect h
  exact he.keeps_dp_on_tape hs

/-- Settles O52: the range of DP is kept by the check of the moves, that of IP by the scans' range,
that of IC by the test for input; and a faulting step leaves IP at the byte that faulted. -/
theorem stepKeepsInvariants : Obligations.StepKeepsInvariants := by
  rintro s t ⟨hdp, -, hic, hwf, -⟩ h
  obtain ⟨hprog, -, -⟩ := step_keeps_parameters h
  obtain ⟨-, -, hip⟩ := ipAdvancesOrJumpsPastMatch s t h
  obtain ⟨-, hcursor⟩ := cursorOnlyMovesForwardWithinInput
  obtain ⟨hic', -⟩ := hcursor s t hic h
  refine ⟨step_keeps_dp_on_tape h hdp, hprog ▸ hip, hic', step_keeps_tape_wf h hwf, fun ht => ?_⟩
  obtain ⟨hbyte, heq⟩ := step_of_fault h ht
  rw [heq]
  exact hbyte

/-! Where runs start. -/

theorem start_inv (prog : List Byte) (input : List IoByte) (caps : Config.Caps) :
    (State.start prog input caps).Inv :=
  ⟨show 0 < Config.tapeLen by decide, Nat.zero_le _, Nat.zero_le _, reset_tape_wf,
    fun h => absurd (State.start_fault ..) h⟩

/-- Settles O51: the state after a reset, of the host's or at power-on, is the start of a run. -/
theorem startStatesMeetInvariants : Obligations.StartStatesMeetInvariants :=
  ⟨start_inv .., faultExplained_of_noFault rfl,
    fun _ _ _ => ⟨start_inv .., faultExplained_of_noFault rfl⟩⟩

/-! Every reachable state. -/

/-- OUT holds no more than a finite OUT_CAP of bytes: `.` asks for room. -/
theorem step_keeps_out_within {s t : State} {c : Nat} (h : step s = .next t)
    (hcap : s.caps.out = some c) (hlen : s.out.length ≤ c) : t.out.length ≤ c := by
  obtain ⟨b, -, -, he⟩ := step_effect h
  obtain ⟨-, hout⟩ | ⟨rfl, hout⟩ := he.out_cases
  · rwa [hout]
  · obtain ⟨-, hroom, -⟩ := he.eq_of_out
    rw [State.OutRoom, hcap, withinCap_some] at hroom
    rwa [hout, List.length_append, List.length_singleton]

/-- Settles O54: the start states have each part, and each step keeps it. -/
theorem reachableStatesMeetInvariants : Obligations.ReachableStatesMeetInvariants := by
  obtain ⟨-, -, hhost⟩ := startStatesMeetInvariants
  intro caps s h
  induction h with
  | start => exact ⟨start_inv .., faultExplained_of_noFault rfl, rfl, fun c _ => Nat.zero_le c⟩
  | @hostReset s prog input _ ih =>
    obtain ⟨-, -, hcaps, -⟩ := ih
    obtain ⟨hinv, hexplained⟩ := hhost s prog input
    exact ⟨hinv, hexplained, (hostReset_caps ..).trans hcaps, fun c _ => Nat.zero_le c⟩
  | @step s t _ hs ih =>
    obtain ⟨hinv, -, hcaps, hout⟩ := ih
    obtain ⟨-, -, hkept⟩ := step_keeps_parameters hs
    exact ⟨stepKeepsInvariants s t hinv hs, recordedFaultIsExplainedByState s t hs,
      hkept.trans hcaps,
      fun c hc => step_keeps_out_within hs (hcaps ▸ hc) (hout c hc)⟩

/-! The form of the tape (R20) and the widths of the registers (R10). -/

/-- Settles O55: the canonical form from index 0 on. -/
theorem tapesThatReadAlikeAreEqual : Obligations.TapesThatReadAlikeAreEqual :=
  fun _ _ hm hm' hread => Memory.eq_of_read_eq hm hm' hread

/-- A register as wide as its capacity needs holds every value up to the capacity. -/
theorem lt_two_pow_widthFor {n c : Nat} (h : n ≤ c) : n < 2 ^ Config.widthFor c :=
  (Nat.lt_succ_of_le h).trans_le (Nat.le_pow_clog Nat.one_lt_two _)

/-- Settles O56: the ranges of the invariants, each below the power of 2 of its width. -/
theorem registersFitTheirHardwareWidths : Obligations.RegistersFitTheirHardwareWidths := by
  rintro s ⟨hdp, hip, hic, -, -⟩
  have htape : Config.tapeLen ≤ 2 ^ Config.dpWidth := by decide
  exact ⟨hdp.trans_le htape, fun c hc => lt_two_pow_widthFor (hip.trans hc),
    fun c hc => lt_two_pow_widthFor (hic.trans hc)⟩

end Sys2Proof.Machine
end

section
/-! PROOFS. STATUS and FAULT as the host reads them (spec 10_state.md R25, R26), and when there is no
step: the run has ended (R77), or it is over a capacity (R9). -/

namespace Sys2Proof.Machine

/-! STATUS and FAULT. -/

theorem status_halted_iff {s : State} :
    status s = .halted ↔ s.fault = .noFault ∧ s.prog.length ≤ s.ip := by
  rw [← Nat.not_lt]
  unfold status
  cases s.fault with
  | noFault => by_cases h : s.ip < s.prog.length <;> simp [h]
  | outOfBounds => simp
  | malformedProgram => simp

/-- Settles O4: with IP at most PROG_LEN, HALTED is IP = PROG_LEN. -/
theorem statusFollowsFaultAndIp : Obligations.StatusFollowsFaultAndIp := by
  intro s hip
  have heq : s.prog.length ≤ s.ip ↔ s.ip = s.prog.length := by omega
  exact ⟨status_faulted_iff, status_halted_iff.trans (and_congr_right fun _ => heq),
    status_running_iff⟩

/-- Settles O5: the code of each value of FAULT. -/
theorem faultCodesAreAsNumbered : Obligations.FaultCodesAreAsNumbered := by
  intro s
  rw [hostFault]
  cases s.fault with
  | noFault => decide
  | outOfBounds => decide
  | malformedProgram => decide

/-! The step of a run within its capacities, by STATUS (R77). -/

theorem step_of_halted {s : State} (hcaps : s.WithinCaps) (h : status s = .halted) :
    step s = .fault .runHalted := by
  obtain ⟨hprog, hinput⟩ := hcaps
  simp [step, fetch, hprog, hinput, h]

theorem step_of_faulted {s : State} (hcaps : s.WithinCaps) (h : status s = .faulted) :
    step s = .fault .runFaulted := by
  obtain ⟨hprog, hinput⟩ := hcaps
  simp [step, fetch, hprog, hinput, h]

theorem step_of_running {s : State} (hcaps : s.WithinCaps) (h : status s = .running) :
    ∃ b, s.prog[s.ip]? = some b ∧ step s = exec (decodeByte b) s := by
  obtain ⟨hf, hlt⟩ := status_running_iff.mp h
  have hb := List.getElem?_eq_getElem hlt
  exact ⟨_, hb, stepRunsDecodedInstruction s _ hcaps hf hb⟩

/-- With DP on the tape an instruction completes, or is a `.` that is refused on a full OUT. -/
theorem exec_ne_fault {s : State} (hd : s.dp < Config.tapeLen) (b : Byte) (r : Fault) :
    exec (decodeByte b) s ≠ .fault r := by
  by_cases hroom : b = Opcode.out → s.OutRoom
  · obtain ⟨t, he⟩ := exists_effect hd hroom
    rw [he.exec_eq]
    exact nofun
  · obtain ⟨rfl, hfull⟩ := Classical.not_imp.mp hroom
    rw [decodeByte_out, exec_out, execOut_full hd hfull]
    exact nofun

/-- Settles O11: each STATUS has a step of its own, and only the running one's is an instruction's. -/
theorem stopsExactlyWhenRunHasEnded : Obligations.StopsExactlyWhenRunHasEnded := by
  rintro s ⟨hd, -⟩ hcaps
  rw [hostStatus]
  cases hst : status s with
  | running =>
    obtain ⟨b, -, hstep⟩ := step_of_running hcaps hst
    have hne : ∀ r, step s ≠ .fault r := fun r => hstep ▸ exec_ne_fault hd b r
    exact ⟨iff_of_false (hne _) nofun, iff_of_false (hne _) nofun, fun a => hne _⟩
  | halted => simp [step_of_halted hcaps hst]
  | faulted => simp [step_of_faulted hcaps hst]

/-! Refusals (R9, D10). -/

theorem raise_ne_refused (x : FaultReg) (s : State) (r : Refusal) : raise x s ≠ .refused r := nofun

theorem withCur_refused {s : State} {k : Cell → Result} {r : Refusal}
    (h : withCur s k = .refused r) : k (s.cell s.dp) = .refused r := by
  by_cases hd : s.dp < Config.tapeLen
  · rwa [withCur_ok k hd] at h
  · simp [withCur, memRead, hd] at h

theorem writeCurAdvance_ne_refused (v : Cell) (s : State) (r : Refusal) :
    writeCurAdvance v s ≠ .refused r := by
  by_cases hd : s.dp < Config.tapeLen
  · rw [writeCurAdvance_ok v hd]
    exact nofun
  · simp [writeCurAdvance, memWrite, hd]

theorem modifyCur_ne_refused (f : Cell → Cell) (s : State) (r : Refusal) :
    modifyCur f s ≠ .refused r :=
  fun h => writeCurAdvance_ne_refused _ s r (withCur_refused h)

theorem takeJump_ne_refused (target : Option Nat) (s : State) (r : Refusal) :
    takeJump target s ≠ .refused r := by
  cases target with
  | none => exact raise_ne_refused _ s r
  | some m => exact nofun

/-- The one refusal of an instruction: `.` on a full OUT. -/
theorem exec_refused {i : Instr} {s : State} {r : Refusal} (h : exec i s = .refused r) :
    i = .out ∧ ¬ s.OutRoom := by
  cases i with
  | out =>
    refine ⟨rfl, fun hroom => ?_⟩
    have hout := withCur_refused h
    rw [outAppend_ok _ hroom] at hout
    cases hout
  | right =>
    by_cases hd : s.dp = Config.tapeLen - 1
    · rw [exec_right, execRight_raises hd] at h; cases h
    · rw [exec_right, execRight_moves hd] at h; cases h
  | left =>
    by_cases hd : s.dp = 0
    · rw [exec_left, execLeft_raises hd] at h; cases h
    · rw [exec_left, execLeft_moves hd] at h; cases h
  | inc => exact absurd h (modifyCur_ne_refused incByte s r)
  | dec => exact absurd h (modifyCur_ne_refused decByte s r)
  | inp => exact absurd h (writeCurAdvance_ne_refused _ _ r)
  | jz =>
    have hjump := withCur_refused h
    split at hjump
    · exact absurd hjump (takeJump_ne_refused _ s r)
    · cases hjump
  | jnz =>
    have hjump := withCur_refused h
    split at hjump
    · cases hjump
    · exact absurd hjump (takeJump_ne_refused _ s r)
  | nop b => cases h

theorem step_refused {s : State} {r : Refusal} (hcaps : s.WithinCaps) (h : step s = .refused r) :
    s.prog[s.ip]? = some Opcode.out ∧ ¬ s.OutRoom := by
  cases hst : status s with
  | halted => rw [step_of_halted hcaps hst] at h; cases h
  | faulted => rw [step_of_faulted hcaps hst] at h; cases h
  | running =>
    obtain ⟨b, hb, hstep⟩ := step_of_running hcaps hst
    obtain ⟨hi, hfull⟩ := exec_refused (hstep.symm.trans h)
    exact ⟨decodeByte_eq_out_iff.mp hi ▸ hb, hfull⟩

theorem step_of_prog_over {s : State} (h : withinCap s.caps.prog s.prog.length = false) :
    step s = .refused .programTooLong := by
  simp [step, fetch, h]

theorem step_of_input_over {s : State} (hprog : withinCap s.caps.prog s.prog.length = true)
    (h : withinCap s.caps.input s.input.length = false) : step s = .refused .inputTooLong := by
  simp [step, fetch, hprog, h]

theorem withinCap_iff {cap : Option Nat} {n : Nat} :
    withinCap cap n = true ↔ ∀ c, cap = some c → n ≤ c := by
  cases cap with
  | none => simp
  | some c => simp

/-- A finite capacity that is exceeded. -/
theorem withinCap_of_lt {cap : Option Nat} {c n : Nat} (hcap : cap = some c) (h : c < n) :
    withinCap cap n = false := by
  rw [hcap, withinCap, decide_eq_false h.not_ge]

/-- Settles O13: the fetch checks PROG first and INPUT next, and past it only `.` refuses. -/
theorem onlyOverCapacityRunsAreRefused : Obligations.OnlyOverCapacityRunsAreRefused := by
  intro s
  refine ⟨fun r h => ?_, fun c hcap hlt => step_of_prog_over (withinCap_of_lt hcap hlt),
    fun c hprog hcap hlt => step_of_input_over (withinCap_iff.mpr hprog) (withinCap_of_lt hcap hlt),
    fun hcaps r h => ?_⟩
  · exact or_iff_not_imp_left.mpr fun hwithin => step_refused (not_not.mp hwithin) h
  · have hwithin : s.WithinCaps ∧ s.OutRoom := by
      simp [State.WithinCaps, State.OutRoom, hcaps, Config.Caps.unbounded]
    obtain ⟨hrun, hroom⟩ := hwithin
    obtain ⟨-, hfull⟩ := step_refused hrun h
    exact hfull hroom

end Sys2Proof.Machine
end

section
/-! PROOFS. The bracket scans as passes over the bytes they examine (spec 43_jumps.md R126, R127), and
the nesting of balanced programs (R129). -/

namespace Sys2Proof.Machine

/-! Both scans in one: the passes over a list of bytes, in the order in which they are examined. -/

/-- How many passes a scan makes before the one in which DEPTH becomes 0; `fwdScan_eq_passes` and
`bwdScan_eq_passes` tie it to the scans. -/
def passesToZero (pass : Byte → Nat → Nat) : List Byte → Nat → Option Nat
  | [], _ => none
  | b :: rest, depth =>
    if pass b depth = 0 then some 0 else (passesToZero pass rest (pass b depth)).map (· + 1)

/-- DEPTH after passes over all of a list. -/
def depthOver (pass : Byte → Nat → Nat) (l : List Byte) (depth : Nat) : Nat :=
  l.foldl (fun d b => pass b d) depth

theorem passesToZero_cons_of_eq {pass : Byte → Nat → Nat} {b : Byte} {depth : Nat}
    (h : pass b depth = 0) (rest : List Byte) :
    passesToZero pass (b :: rest) depth = some 0 := if_pos h

theorem passesToZero_cons_of_ne {pass : Byte → Nat → Nat} {b : Byte} {depth : Nat}
    (h : pass b depth ≠ 0) (rest : List Byte) :
    passesToZero pass (b :: rest) depth =
      (passesToZero pass rest (pass b depth)).map (· + 1) := if_neg h

theorem fwdScan_eq_passes (l : List Byte) (sp depth : Nat) :
    fwdScan l sp depth = (passesToZero fwdDepth l depth).map (sp + ·) := by
  induction l generalizing sp depth with
  | nil => rfl
  | cons b rest ih =>
    rw [fwdScan_cons]
    by_cases h : fwdDepth b depth = 0
    · rw [if_pos h, passesToZero_cons_of_eq h]
      rfl
    · rw [if_neg h, passesToZero_cons_of_ne h, ih, Option.map_map]
      congr 1
      funext j
      simp only [Function.comp_apply]
      omega

theorem bwdScan_eq_passes {prog : List Byte} {sp : Nat} (hsp : sp ≤ prog.length) (depth : Nat) :
    bwdScan prog sp depth =
      (passesToZero bwdDepth (prog.take sp).reverse depth).map (sp - 1 - ·) := by
  induction sp generalizing depth with
  | zero => rfl
  | succ sp ih =>
    have hread : progRead prog sp = some prog[sp] := List.getElem?_eq_getElem hsp
    have hbytes : (prog.take (sp + 1)).reverse = prog[sp] :: (prog.take sp).reverse := by
      rw [← List.take_concat_get' prog sp hsp, List.reverse_concat]
    rw [bwdScan_succ, hread, hbytes]
    by_cases h : bwdDepth prog[sp] depth = 0
    · rw [passesToZero_cons_of_eq h]
      exact if_pos h
    · rw [passesToZero_cons_of_ne h, Option.map_map]
      refine (if_neg h).trans ((ih (by omega) _).trans ?_)
      congr 1
      funext j
      simp only [Function.comp_apply]
      omega

section
variable {pass : Byte → Nat → Nat} {l : List Byte} {depth : Nat}

theorem depthOver_at_zero {j : Nat} (h : passesToZero pass l depth = some j) :
    depthOver pass (l.take (j + 1)) depth = 0 := by
  induction l generalizing depth j with
  | nil => cases h
  | cons b rest ih =>
    by_cases hb : pass b depth = 0
    · rw [passesToZero_cons_of_eq hb] at h
      obtain rfl := Option.some.inj h
      exact hb
    · rw [passesToZero_cons_of_ne hb] at h
      obtain ⟨i, hi, rfl⟩ := Option.map_eq_some_iff.mp h
      exact ih hi

/-- Before the pass that makes DEPTH 0, and at every pass when there is none, DEPTH is positive and has
grown by at most 1 a pass. -/
theorem depthOver_before_zero {k : Nat} (hgrow : ∀ b d, pass b d ≤ d + 1) (hd : 0 < depth)
    (hk : ∀ j, passesToZero pass l depth = some j → k ≤ j) :
    0 < depthOver pass (l.take k) depth ∧ depthOver pass (l.take k) depth ≤ depth + k := by
  induction l generalizing depth k with
  | nil =>
    rw [List.take_nil]
    exact ⟨hd, Nat.le_add_right depth k⟩
  | cons b rest ih =>
    cases k with
    | zero => exact ⟨hd, le_rfl⟩
    | succ k =>
      have hb : pass b depth ≠ 0 := fun hb =>
        Nat.not_succ_le_zero k (hk 0 (passesToZero_cons_of_eq hb rest))
      have hrest : ∀ j, passesToZero pass rest (pass b depth) = some j → k ≤ j := fun j hj =>
        Nat.succ_le_succ_iff.mp (hk (j + 1) (by rw [passesToZero_cons_of_ne hb, hj]; rfl))
      obtain ⟨hpos, hle⟩ := ih (Nat.pos_of_ne_zero hb) hrest
      have hstep := hgrow b depth
      exact ⟨hpos, by rw [List.take_succ_cons]; exact hle.trans (by omega)⟩

/-- A scan ends at the byte that closes: the only one that takes DEPTH from a positive value to 0. -/
theorem passesToZero_byte {close : Byte} {j : Nat} (hd : 0 < depth)
    (hclose : ∀ b d, 0 < d → pass b d = 0 → b = close)
    (h : passesToZero pass l depth = some j) : l[j]? = some close := by
  induction l generalizing depth j with
  | nil => cases h
  | cons b rest ih =>
    by_cases hb : pass b depth = 0
    · rw [passesToZero_cons_of_eq hb] at h
      obtain rfl := Option.some.inj h
      rw [List.getElem?_cons_zero, hclose b depth hd hb]
    · rw [passesToZero_cons_of_ne hb] at h
      obtain ⟨i, hi, rfl⟩ := Option.map_eq_some_iff.mp h
      rw [List.getElem?_cons_succ]
      exact ih (Nat.pos_of_ne_zero hb) hi

end

/-! A pass of each scan. -/

theorem fwdDepth_le (b : Byte) (depth : Nat) : fwdDepth b depth ≤ depth + 1 := by
  obtain ⟨-, h⟩ | ⟨-, h⟩ | ⟨-, -, h⟩ := fwdDepth_cases b depth <;> omega

theorem bwdDepth_le (b : Byte) (depth : Nat) : bwdDepth b depth ≤ depth + 1 := by
  obtain ⟨-, h⟩ | ⟨-, h⟩ | ⟨-, -, h⟩ := bwdDepth_cases b depth <;> omega

theorem eq_jnz_of_fwdDepth_eq_zero (b : Byte) (depth : Nat) (hd : 0 < depth)
    (h : fwdDepth b depth = 0) : b = Opcode.jnz := by
  obtain ⟨-, heq⟩ | ⟨hb, -⟩ | ⟨-, -, heq⟩ := fwdDepth_cases b depth
  · omega
  · exact hb
  · omega

theorem eq_jz_of_bwdDepth_eq_zero (b : Byte) (depth : Nat) (hd : 0 < depth)
    (h : bwdDepth b depth = 0) : b = Opcode.jz := by
  obtain ⟨-, heq⟩ | ⟨hb, -⟩ | ⟨-, -, heq⟩ := bwdDepth_cases b depth
  · omega
  · exact hb
  · omega

/-! The matches by their passes. -/

theorem fwdMatch_eq_some_iff_passes {prog : List Byte} {p m : Nat} :
    fwdMatch prog p = some m ↔
      ∃ j, passesToZero fwdDepth (prog.drop (p + 1)) 1 = some j ∧ p + 1 + j = m := by
  rw [fwdMatch, fwdScan_eq_passes, Option.map_eq_some_iff]

theorem le_length_of_bwdMatch {prog : List Byte} {p m : Nat} (h : bwdMatch prog p = some m) :
    p ≤ prog.length := by
  by_contra hlt
  obtain ⟨q, rfl⟩ : ∃ q, p = q + 1 := ⟨p - 1, by omega⟩
  have hread : progRead prog q = none := List.getElem?_eq_none (by omega)
  rw [bwdMatch, bwdScan_succ, hread] at h
  cases h

/-- The passes of a backward scan that finds a match end at a `[` before `p`. -/
theorem bwd_passes_byte {prog : List Byte} {p j : Nat} (hp : p ≤ prog.length)
    (h : passesToZero bwdDepth (prog.take p).reverse 1 = some j) :
    j < p ∧ prog[p - 1 - j]? = some Opcode.jz := by
  have hbyte := passesToZero_byte Nat.one_pos eq_jz_of_bwdDepth_eq_zero h
  have hlen : (prog.take p).length = p := List.length_take_of_le hp
  obtain ⟨hlt, -⟩ := List.getElem?_eq_some_iff.mp hbyte
  rw [List.length_reverse, hlen] at hlt
  rw [List.getElem?_reverse (hlt.trans_eq hlen.symm), hlen,
    List.getElem?_take_of_lt (by omega)] at hbyte
  exact ⟨hlt, hbyte⟩

theorem bwdMatch_eq_some_iff_passes {prog : List Byte} {p m : Nat} (hp : p ≤ prog.length) :
    bwdMatch prog p = some m ↔
      ∃ j, passesToZero bwdDepth (prog.take p).reverse 1 = some j ∧ m + 1 + j = p := by
  rw [bwdMatch, bwdScan_eq_passes hp, Option.map_eq_some_iff]
  refine exists_congr fun j => and_congr_right fun hj => ?_
  obtain ⟨hlt, -⟩ := bwd_passes_byte hp hj
  omega

/-! The targets and DEPTH (R126, R127). -/

theorem fwdMatch_byte {prog : List Byte} {p m : Nat} (h : fwdMatch prog p = some m) :
    prog[m]? = some Opcode.jnz := by
  obtain ⟨j, hj, rfl⟩ := fwdMatch_eq_some_iff_passes.mp h
  rw [← List.getElem?_drop]
  exact passesToZero_byte Nat.one_pos eq_jnz_of_fwdDepth_eq_zero hj

theorem bwdMatch_byte {prog : List Byte} {p m : Nat} (h : bwdMatch prog p = some m) :
    prog[m]? = some Opcode.jz := by
  have hp := le_length_of_bwdMatch h
  obtain ⟨j, hj, rfl⟩ := (bwdMatch_eq_some_iff_passes hp).mp h
  obtain ⟨-, hbyte⟩ := bwd_passes_byte hp hj
  rwa [show m + 1 + j - 1 - j = m by omega] at hbyte

/-- Settles O30: the range of each scan, and the byte at which its passes end. -/
theorem jumpTargetsAreInRange : Obligations.JumpTargetsAreInRange := by
  intro prog p m
  refine ⟨fun h => ?_, fun h => ?_⟩
  · have := fwdMatch_range h
    exact ⟨by omega, by omega, fwdMatch_byte h⟩
  · have := bwdMatch_range h
    exact ⟨by omega, by omega, bwdMatch_byte h⟩

theorem fwdDepthAfter_eq (prog : List Byte) (p k : Nat) :
    fwdDepthAfter prog p k = depthOver fwdDepth ((prog.drop (p + 1)).take k) 1 := rfl

theorem bwdDepthAfter_eq (prog : List Byte) (p k : Nat) :
    bwdDepthAfter prog p k = depthOver bwdDepth ((prog.take p).reverse.take k) 1 := rfl

/-- Settles O31: DEPTH starts at 1 and grows by at most 1 a pass, over fewer passes than PROG_LEN. -/
theorem scanDepthStaysWithinProgramLength : Obligations.ScanDepthStaysWithinProgramLength := by
  intro prog p hp
  refine ⟨fun k hk hbefore => ?_, fun m hm => ?_, fun k hk hbefore => ?_, fun m hm => ?_⟩
  · have hpass : ∀ j, passesToZero fwdDepth (prog.drop (p + 1)) 1 = some j → k ≤ j := fun j hj => by
      have := hbefore _ (fwdMatch_eq_some_iff_passes.mpr ⟨j, hj, rfl⟩)
      omega
    obtain ⟨hpos, hle⟩ := depthOver_before_zero fwdDepth_le Nat.one_pos hpass
    exact ⟨hpos, hle.trans (by omega)⟩
  · obtain ⟨j, hj, rfl⟩ := fwdMatch_eq_some_iff_passes.mp hm
    rw [fwdDepthAfter_eq, show p + 1 + j - p = j + 1 by omega]
    exact depthOver_at_zero hj
  · have hpass : ∀ j, passesToZero bwdDepth (prog.take p).reverse 1 = some j → k ≤ j := fun j hj => by
      obtain ⟨hlt, -⟩ := bwd_passes_byte hp.le hj
      have := hbefore (p - 1 - j) ((bwdMatch_eq_some_iff_passes hp.le).mpr ⟨j, hj, by omega⟩)
      omega
    obtain ⟨hpos, hle⟩ := depthOver_before_zero bwdDepth_le Nat.one_pos hpass
    exact ⟨hpos, hle.trans (by omega)⟩
  · obtain ⟨j, hj, rfl⟩ := (bwdMatch_eq_some_iff_passes hp.le).mp hm
    rw [bwdDepthAfter_eq, show m + 1 + j - m = j + 1 by omega]
    exact depthOver_at_zero hj

/-! Nesting (R129), by the excess of `]` before each position. -/

/-- How many more `]` than `[` stand before position `k`. -/
def excessBefore (prog : List Byte) (k : Nat) : Int := excess (prog.take k)

theorem excess_progPiece (prog : List Byte) {i j : Nat} (h : i ≤ j + 1) :
    excess (progPiece prog i j) = excessBefore prog (j + 1) - excessBefore prog i := by
  have hsplit := congrArg excess (List.take_append_drop i (prog.take (j + 1)))
  rw [excess_append, List.take_take, min_eq_left h] at hsplit
  rw [progPiece, excessBefore, excessBefore]
  omega

theorem excessBefore_succ {prog : List Byte} {k : Nat} {b : Byte} (hb : prog[k]? = some b) :
    excessBefore prog (k + 1) = excessBefore prog k + excess [b] := by
  rw [excessBefore, List.take_add_one, hb, excess_append]
  rfl

theorem excessBefore_succ_of_length_le {prog : List Byte} {k : Nat} (h : prog.length ≤ k) :
    excessBefore prog (k + 1) = excessBefore prog k := by
  rw [excessBefore, excessBefore, List.take_of_length_le h, List.take_of_length_le (by omega)]

theorem excess_singleton_bounds (b : Byte) : -1 ≤ excess [b] ∧ excess [b] ≤ 1 := by
  by_cases hz : b = Opcode.jz
  · rw [hz, excess_jz]; decide
  · by_cases hn : b = Opcode.jnz
    · rw [hn, excess_jnz]; decide
    · rw [excess_nonBracket ⟨hz, hn⟩]; decide

theorem excessBefore_step (prog : List Byte) (k : Nat) :
    excessBefore prog k - 1 ≤ excessBefore prog (k + 1) ∧
      excessBefore prog (k + 1) ≤ excessBefore prog k + 1 := by
  obtain hk | hk := Nat.lt_or_ge k prog.length
  · have hbounds := excess_singleton_bounds prog[k]
    rw [excessBefore_succ (List.getElem?_eq_getElem hk)]
    omega
  · rw [excessBefore_succ_of_length_le hk]
    omega

/-- An integer sequence that rises by at most 1 a step takes every value between two of its values. -/
theorem exists_eq_of_le_add_one {f : Nat → Int} {a b : Nat} {c : Int}
    (hstep : ∀ k, f (k + 1) ≤ f k + 1) (hab : a ≤ b) (ha : f a ≤ c) (hb : c ≤ f b) :
    ∃ k, a ≤ k ∧ k ≤ b ∧ f k = c := by
  induction b, hab using Nat.le_induction with
  | base => exact ⟨a, le_rfl, le_rfl, le_antisymm ha hb⟩
  | succ n han ih =>
    obtain hn | hn := le_or_gt c (f n)
    · obtain ⟨k, hak, hkn, hk⟩ := ih hn
      exact ⟨k, hak, by omega, hk⟩
    · have := hstep n
      exact ⟨n + 1, by omega, le_rfl, by omega⟩

section
variable {prog : List Byte} {p m : Nat}

theorem excessBefore_of_jz (h : prog[p]? = some Opcode.jz) :
    excessBefore prog (p + 1) = excessBefore prog p - 1 := by
  rw [excessBefore_succ h, excess_jz]
  rfl

theorem excessBefore_of_jnz (h : prog[p]? = some Opcode.jnz) :
    excessBefore prog (p + 1) = excessBefore prog p + 1 := by
  rw [excessBefore_succ h, excess_jnz]

/-- The forward scan's condition (R123), from a `[`. -/
theorem fwd_piece_iff (h : prog[p]? = some Opcode.jz) (hm : p < m) :
    excess (progPiece prog (p + 1) m) = 1 ↔
      excessBefore prog (m + 1) = excessBefore prog p := by
  rw [excess_progPiece prog (by omega), excessBefore_of_jz h]
  omega

/-- The backward scan's condition (R125), from a `]`. -/
theorem bwd_piece_iff (h : prog[p]? = some Opcode.jnz) (hm : m < p) :
    excess (progPiece prog m (p - 1)) = -1 ↔
      excessBefore prog m = excessBefore prog (p + 1) := by
  rw [excess_progPiece prog (by omega), Nat.sub_one_add_one (by omega), excessBefore_of_jnz h]
  omega

/-- From a `[`, the forward scan finds the first position behind which the excess is again what it was
before the `[`. -/
theorem fwdMatch_of_jz_iff (h : prog[p]? = some Opcode.jz) :
    fwdMatch prog p = some m ↔ p < m ∧ m < prog.length ∧
      excessBefore prog (m + 1) = excessBefore prog p ∧
      ∀ k, p < k → k < m → excessBefore prog (k + 1) ≠ excessBefore prog p := by
  rw [(fwdMatchIsLeastBalancingClose prog p).1 m]
  refine and_congr_right fun hpm => and_congr_right fun _ => and_congr (fwd_piece_iff h hpm) ?_
  exact forall_congr' fun k => forall_congr' fun hk => forall_congr' fun _ =>
    not_congr (fwd_piece_iff h hk)

/-- From a `]`, the backward scan finds the last position before which the excess is what it is behind
the `]`. -/
theorem bwdMatch_of_jnz_iff (h : prog[p]? = some Opcode.jnz) :
    bwdMatch prog p = some m ↔ m < p ∧ excessBefore prog m = excessBefore prog (p + 1) ∧
      ∀ k, m < k → k < p → excessBefore prog k ≠ excessBefore prog (p + 1) := by
  obtain ⟨hp, -⟩ := List.getElem?_eq_some_iff.mp h
  rw [(bwdMatchIsGreatestBalancingOpen prog p hp).1 m]
  refine and_congr_right fun hmp => and_congr (bwd_piece_iff h hmp) ?_
  exact forall_congr' fun k => forall_congr' fun _ => forall_congr' fun hk =>
    not_congr (bwd_piece_iff h hk)

/-- Behind a `[` the excess is less than before it, and at the end of the program it is 0, not less than
before the `[`; so it comes back on the way. -/
theorem exists_fwdMatch_of_balanced (hbal : BracketsBalanced prog)
    (h : prog[p]? = some Opcode.jz) : ∃ m, fwdMatch prog p = some m := by
  obtain ⟨htotal, hlead⟩ := hbal
  obtain ⟨hp, -⟩ := List.getElem?_eq_some_iff.mp h
  have hend : excessBefore prog p ≤ excessBefore prog prog.length := by
    rw [excessBefore, excessBefore, List.take_length, htotal]
    exact hlead p
  have hstart := excessBefore_of_jz h
  obtain ⟨k, hpk, hklen, hk⟩ :=
    exists_eq_of_le_add_one (a := p + 1) (fun k => (excessBefore_step prog k).2) hp (by omega) hend
  have hne : k ≠ p + 1 := fun heq => by rw [heq] at hk; omega
  obtain ⟨j, rfl⟩ : ∃ j, k = j + 1 := ⟨k - 1, by omega⟩
  refine Option.ne_none_iff_exists'.mp fun hnone => ?_
  have hpiece := (fwdMatchIsLeastBalancingClose prog p).2.mp hnone j (by omega) (by omega)
  exact hpiece ((fwd_piece_iff h (by omega)).mpr hk)

/-- Behind a `]` the excess is more than before it and no more than the 0 at the start of the program;
so it was that on the way. -/
theorem exists_bwdMatch_of_balanced (hbal : BracketsBalanced prog)
    (h : prog[p]? = some Opcode.jnz) : ∃ m, bwdMatch prog p = some m := by
  obtain ⟨-, hlead⟩ := hbal
  obtain ⟨hp, -⟩ := List.getElem?_eq_some_iff.mp h
  have hbegin : excessBefore prog (p + 1) ≤ excessBefore prog 0 := hlead (p + 1)
  have hend := excessBefore_of_jnz h
  obtain ⟨k, -, hkp, hk⟩ := exists_eq_of_le_add_one (f := fun k => -excessBefore prog k)
    (c := -excessBefore prog (p + 1)) (fun k => by have := excessBefore_step prog k; omega)
    (Nat.zero_le p) (by omega) (by omega)
  have hne : k ≠ p := fun heq => by rw [heq] at hk; omega
  refine Option.ne_none_iff_exists'.mp fun hnone => ?_
  have hpiece := (bwdMatchIsGreatestBalancingOpen prog p hp).2.mp hnone k (by omega)
  exact hpiece ((bwd_piece_iff h (by omega)).mpr (neg_inj.mp hk))

/-- The two scans between a `[` and a `]` look for the same: equal excess outside the pair, and no
position with that excess inside it. -/
theorem fwdMatch_iff_bwdMatch (hp : prog[p]? = some Opcode.jz) (hm : prog[m]? = some Opcode.jnz) :
    fwdMatch prog p = some m ↔ bwdMatch prog m = some p := by
  obtain ⟨hlt, -⟩ := List.getElem?_eq_some_iff.mp hm
  have hopen := excessBefore_of_jz hp
  have hclose := excessBefore_of_jnz hm
  rw [fwdMatch_of_jz_iff hp, bwdMatch_of_jnz_iff hm]
  constructor
  · rintro ⟨hpm, -, heq, hinside⟩
    refine ⟨hpm, heq.symm, fun k hpk hkm => ?_⟩
    obtain ⟨j, rfl⟩ : ∃ j, k = j + 1 := ⟨k - 1, by omega⟩
    obtain rfl | hpj : p = j ∨ p < j := by omega
    · omega
    · rw [heq]
      exact hinside j hpj (by omega)
  · rintro ⟨hpm, heq, hinside⟩
    refine ⟨hpm, hlt, heq.symm, fun k hpk hkm => ?_⟩
    obtain hend | hkm' : k + 1 = m ∨ k + 1 < m := by omega
    · rw [hend, heq]
      omega
    · rw [heq]
      exact hinside (k + 1) (by omega) hkm'

end

/-- Settles O32: the three facts about the excess before each position. -/
theorem balancedProgramsMatchEveryBracket : Obligations.BalancedProgramsMatchEveryBracket :=
  fun _ hbal => ⟨fun _ hp => exists_fwdMatch_of_balanced hbal hp,
    fun _ hp => exists_bwdMatch_of_balanced hbal hp, fun _ _ hp hm => fwdMatch_iff_bwdMatch hp hm⟩

end Sys2Proof.Machine
end
